-- ==== Sys2Proof/Word.lean ====
section
/-! DEFINITION. The word types of the keccak-rs CORE: byte, lane, command word and the 25 lanes (rules R10, R20, R70). -/

namespace Sys2Proof

/-- A byte of the state buffer, of a payload or of a response (R10, R50). -/
abbrev Byte := BitVec 8

/-- A lane: an unsigned 64-bit value, bit 0 the least significant (R10, R20). -/
abbrev Lane := BitVec 64

/-- A command word of format CMD16 (R70). -/
abbrev CmdWord := BitVec 16

/-- The registers `A[0] .. A[24]`, which are also the 200 bytes of the state buffer (R20, R22, R23). -/
abbrev Lanes := Vector Lane 25

end Sys2Proof
end

