-- ==== Sys2Proof/Config.lean ====
section
/-! DEFINITION. What an instance fixes (rules R6, R30) and the free values of the model (assumption 6). -/

namespace Sys2Proof

/-- The configuration record `cfg` of an instance (R6, R8, R30): RATE and CAPACITY in bits (0..1600, R30), the
domain-separation byte SUFFIX and the digest length OUTLEN in bytes. -/
structure Config where
  rate     : Fin 1601
  capacity : Fin 1601
  suffix   : Byte
  outlen   : BitVec 8
  deriving DecidableEq, Repr

/-- `BYTE_RATE = floor(RATE / 8)` (R6, R30). -/
def Config.byteRate (c : Config) : Nat := c.rate.val / 8

/-- The instance this specification describes (R6): RATE 1088, CAPACITY 512, SUFFIX 0x01, OUTLEN 32. -/
def Config.keccak256 : Config := ⟨1088, 512, 0x01, 32⟩

/-- FREE VALUE (assumption 6). What a lane that has lost its value (R35) holds. It has no body, so no proof can know it:
a statement about a state after SQUEEZE holds whatever the lanes hold. The argument is a fresh number for each
lane and each loss. -/
opaque Config.freeLane : Nat → Lane

end Sys2Proof
end

