-- ==== Sys2Proof/Syntax.lean ====
section
/-! DEFINITION. The 13 commands of KCMD-1 (rule R72), one constructor per row of spec/opcode_table.json. -/

namespace Sys2Proof

/-- A command: its opcode is the constructor, `arg` is the ARG field of the command word (R70, R73) and `payload` the
delimited list of bytes the host sends with it (R71). A wrong `arg` or payload length makes no other command
(R78): the command is refused with BAD_ARG by its own meaning (R162), so every pair of values is syntax. -/
inductive Instr where
  /-- 0x10, R92 -/
  | theta    (arg : Byte) (payload : List Byte)
  /-- 0x11, R93 -/
  | rhopi    (arg : Byte) (payload : List Byte)
  /-- 0x12, R95 -/
  | chi      (arg : Byte) (payload : List Byte)
  /-- 0x13, R96; ARG is the round number -/
  | iota     (arg : Byte) (payload : List Byte)
  /-- 0x14, R97; ARG is the round number -/
  | round    (arg : Byte) (payload : List Byte)
  /-- 0x15, R98 -/
  | permute  (arg : Byte) (payload : List Byte)
  /-- 0x20, R110; the payload is the 200-byte state -/
  | ldstate  (arg : Byte) (payload : List Byte)
  /-- 0x21, R111 -/
  | rdstate  (arg : Byte) (payload : List Byte)
  /-- 0x30, R121 -/
  | init     (arg : Byte) (payload : List Byte)
  /-- 0x31, R122; ARG is the block length in bytes, the payload the block -/
  | absorb   (arg : Byte) (payload : List Byte)
  /-- 0x32, R123 -/
  | final    (arg : Byte) (payload : List Byte)
  /-- 0x33, R124 -/
  | squeeze  (arg : Byte) (payload : List Byte)
  /-- 0x40, R141 -/
  | rdstatus (arg : Byte) (payload : List Byte)
  deriving DecidableEq, Repr

/-- The ARG field of a command. -/
def Instr.arg : Instr → Byte
  | .theta a _ | .rhopi a _ | .chi a _ | .iota a _ | .round a _ | .permute a _ | .ldstate a _ | .rdstate a _
  | .init a _ | .absorb a _ | .final a _ | .squeeze a _ | .rdstatus a _ => a

/-- The payload of a command. -/
def Instr.payload : Instr → List Byte
  | .theta _ p | .rhopi _ p | .chi _ p | .iota _ p | .round _ p | .permute _ p | .ldstate _ p | .rdstate _ p
  | .init _ p | .absorb _ p | .final _ p | .squeeze _ p | .rdstatus _ p => p

end Sys2Proof
end

