-- ==== Sys2Proof/WellFormed.lean ====
section
/-! DEFINITION. When a command is well formed: ARG in its legal set (rules R72, R73) and a payload of the required
length (rule R74). The machine refuses every other command with BAD_ARG (R78, R162). -/

namespace Sys2Proof

/-- The legal set of ARG (R72, R73): a round number 0..23, a block length 1..BYTE_RATE, and 0 where it is unused. -/
def Instr.argLegal (c : Config) : Instr → Bool
  | .iota a _ | .round a _ => decide (a.toNat ≤ 23)
  | .absorb a _ => decide (1 ≤ a.toNat) && decide (a.toNat ≤ c.byteRate)
  | .theta a _ | .rhopi a _ | .chi a _ | .permute a _ | .ldstate a _ | .rdstate a _ | .init a _ | .final a _
  | .squeeze a _ | .rdstatus a _ => a == 0

/-- The required payload length `P(OP, ARG)` (R74). -/
def Instr.requiredPayload : Instr → Nat
  | .ldstate _ _ => 200
  | .absorb a _ => a.toNat
  | .theta _ _ | .rhopi _ _ | .chi _ _ | .iota _ _ | .round _ _ | .permute _ _ | .rdstate _ _ | .init _ _
  | .final _ _ | .squeeze _ _ | .rdstatus _ _ => 0

/-- Both static checks of R83 step 2 pass. -/
def Instr.wellFormed (c : Config) (i : Instr) : Bool :=
  i.argLegal c && i.payload.length == i.requiredPayload

end Sys2Proof
end

