-- ==== Sys2Proof/Decode.lean ====
section
/-! DEFINITION. Decoding a transaction into a command and encoding a command (rules R70 to R74, R77, R80, R83 step 1). -/

namespace Sys2Proof

/-- Why a byte list is no command. -/
inductive DecodeError where
  /-- OP is not one of the 13 opcodes of R72: the engine answers ILLEGAL_CMD (R77, R83 step 1). Safe: the spec's own
  outcome. -/
  | illegalCmd
  /-- Fewer than two bytes, so there is no command word at all. Only `decodeBytes` gives it: a host of the model always
  sends a whole word (R71). Safe. -/
  | noCommandWord
  deriving DecidableEq, Repr

/-- The opcode map of R72. -/
def opcodeMap : List (Byte × (Byte → List Byte → Instr)) :=
  [(0x10, .theta), (0x11, .rhopi), (0x12, .chi), (0x13, .iota), (0x14, .round), (0x15, .permute),
   (0x20, .ldstate), (0x21, .rdstate),
   (0x30, .init), (0x31, .absorb), (0x32, .final), (0x33, .squeeze),
   (0x40, .rdstatus)]

/-- The field OP, bits 15:8 (R70). -/
def opField (w : CmdWord) : Byte := w.extractLsb' 8 8

/-- The field ARG, bits 7:0 (R70). -/
def argField (w : CmdWord) : Byte := w.extractLsb' 0 8

/-- The command a transaction stands for. Total: only an opcode outside R72 is rejected (R77, R80, R83 step 1). -/
def decode (word : CmdWord) (payload : List Byte) : Except DecodeError Instr :=
  match opcodeMap.lookup (opField word) with
  | some command => .ok (command (argField word) payload)
  | none => .error .illegalCmd

/-- A transaction carried as bytes: the OP byte, the ARG byte, then the payload (R70, R71). -/
def decodeBytes : List Byte → Except DecodeError Instr
  | op :: arg :: payload => decode (op ++ arg) payload
  | _ => .error .noCommandWord

/-- The opcode of a command (R72). -/
def Instr.opcode : Instr → Byte
  | .theta _ _ => 0x10
  | .rhopi _ _ => 0x11
  | .chi _ _ => 0x12
  | .iota _ _ => 0x13
  | .round _ _ => 0x14
  | .permute _ _ => 0x15
  | .ldstate _ _ => 0x20
  | .rdstate _ _ => 0x21
  | .init _ _ => 0x30
  | .absorb _ _ => 0x31
  | .final _ _ => 0x32
  | .squeeze _ _ => 0x33
  | .rdstatus _ _ => 0x40

/-- The command word of a command: OP in bits 15:8, ARG in bits 7:0 (R70). -/
def encode (i : Instr) : CmdWord := i.opcode ++ i.arg

/-- The whole transaction as bytes: OP first, ARG second, then the payload (R70, R71). -/
def encodeBytes (i : Instr) : List Byte := i.opcode :: i.arg :: i.payload

/-- Byte `k` after the 16-bit command word of an instruction numbered as spec/opcode_table.json numbers its bits, bits at
and above `nbits` being 0. -/
def tablePayloadByte (nbits w k : Nat) : Byte := BitVec.ofNat 8 (w % 2 ^ nbits / 2 ^ (16 + 8 * k))

/-- The command word in the low 16 bits of such an instruction. -/
def tableWord (nbits w : Nat) : CmdWord := BitVec.ofNat 16 (w % 2 ^ nbits)

/-- The payload the command at that word requires (R74), byte `k` in bits `16+8k+7 : 16+8k`; empty for an illegal word. -/
def tablePayload (nbits w : Nat) : List Byte :=
  match decode (tableWord nbits w) [] with
  | .ok i => (List.range i.requiredPayload).map (tablePayloadByte nbits w)
  | .error _ => []

/-- The instruction the decoder reads from an instruction whose bits are `w`, `nbits` of them given by the opcode table
and the rest 0. It is laid out as the host sends it, OP byte first, and decoded from those bytes. -/
def decodeTableWord (nbits w : Nat) : Option Instr :=
  match decodeBytes (opField (tableWord nbits w) :: argField (tableWord nbits w) :: tablePayload nbits w) with
  | .ok i => some i
  | .error _ => none

end Sys2Proof
end

