-- ==== Sys2Proof/Machine/Tables.lean ====
section
/-! DEFINITION. The constant tables RC, RHO and PI (rules R27 to R29, R38), their generating rules, and the per-lane
tables ROT and DST of the unfused form (rule R94). PRESUMED: the spec marks the values as general knowledge (assumption
11, unsafe). -/

namespace Sys2Proof.Machine

open Sys2Proof

/-- The table of R27 line by line as the rule prints it: line `l` gives the constants of rounds `l`, `l + 8` and
`l + 16`. -/
def rcLines : Vector (Vector Lane 3) 8 :=
  #v[#v[0x0000000000000001, 0x000000000000008A, 0x8000000000008002],
     #v[0x0000000000008082, 0x0000000000000088, 0x8000000000000080],
     #v[0x800000000000808A, 0x0000000080008009, 0x000000000000800A],
     #v[0x8000000080008000, 0x000000008000000A, 0x800000008000000A],
     #v[0x000000000000808B, 0x000000008000808B, 0x8000000080008081],
     #v[0x0000000080000001, 0x800000000000008B, 0x8000000000008080],
     #v[0x8000000080008081, 0x8000000000008089, 0x0000000080000001],
     #v[0x8000000000008009, 0x8000000000008003, 0x8000000080008008]]

/-- The round constants by round number (R27). -/
def RC : Vector Lane 24 :=
  Vector.ofFn fun r : Fin 24 => (rcLines[r.val % 8]'(Nat.mod_lt _ (by decide)))[r.val / 8]'(by omega)

/-- The rotation amounts, indexed by the step of the walk, not by a lane (R28). -/
def RHO : Vector (Fin 64) 24 :=
  #v[1, 3, 6, 10, 15, 21, 28, 36, 45, 55, 2, 14, 27, 41, 56, 8, 25, 43, 62, 18, 39, 61, 20, 44]

/-- The target lanes, indexed by the step of the walk (R29). -/
def PI : Vector (Fin 25) 24 :=
  #v[10, 7, 11, 17, 18, 3, 5, 16, 8, 21, 24, 4, 15, 23, 19, 13, 12, 2, 20, 14, 22, 9, 6, 1]

/-- The 8-bit register of R27's generating rule after `t` bits. -/
def rcRegister : Nat → Byte
  | 0 => 0x01
  | t + 1 => (rcRegister t <<< 1) ^^^ (if (rcRegister t).getLsbD 7 then 0x71 else 0)

/-- The round constant of round `r` by R27's generating rule: bit `2^j - 1` is `rc(7r + j)`, `j = 0..6`. -/
def rcGenerated (r : Nat) : Lane :=
  (List.range 7).foldl (fun v j => if (rcRegister (7 * r + j)).getLsbD 0 then v ||| (1 <<< (2 ^ j - 1)) else v) 0

/-- The coordinates `(x, y)` after `t` steps of R29's generating rule. -/
def piCoordinates : Nat → Nat × Nat
  | 0 => (1, 0)
  | t + 1 => ((piCoordinates t).2, (2 * (piCoordinates t).1 + 3 * (piCoordinates t).2) % 5)

/-- The rotation of lane `i` (R94). -/
def ROT : Vector (Fin 64) 25 :=
  #v[0, 1, 62, 28, 27, 36, 44, 6, 55, 20, 3, 10, 43, 25, 39, 41, 45, 15, 21, 8, 18, 2, 61, 56, 14]

/-- Where lane `i` goes (R94). -/
def DST : Vector (Fin 25) 25 :=
  #v[0, 10, 20, 5, 15, 16, 1, 11, 21, 6, 7, 17, 2, 12, 22, 23, 8, 18, 3, 13, 14, 24, 9, 19, 4]

end Sys2Proof.Machine
end

