-- ==== Sys2Proof/Machine/Engine.lean ====
section
/-! DEFINITION. The permutation engine on the 25 lanes: Theta, fused Rho/Pi, Chi, Iota, one round, the 24 rounds
(rules R11, R21, R90 to R98, R100). -/

namespace Sys2Proof.Machine

open Sys2Proof

/-- Rotation toward the most significant bit by `n`, `0 <= n <= 63` (R11). DESIGN CHOICE: what it gives for a larger `n`, which
no rule asks for (assumption 17, unsafe). -/
def rotl64 (a : Lane) (n : Nat) : Lane := (a <<< n) ||| (a >>> (64 - n))

/-- The linear index of lane `(x, y)` (R21). -/
def laneIndex (x y : Fin 5) : Fin 25 := ⟨x.val + 5 * y.val, by omega⟩

/-- First pass of Theta (R92): `C[x]`, the parity of column `x`. -/
def columnParity (A : Lanes) : Vector Lane 5 :=
  Vector.ofFn fun x : Fin 5 => A[x.val] ^^^ A[x.val + 5] ^^^ A[x.val + 10] ^^^ A[x.val + 15] ^^^ A[x.val + 20]

/-- Second pass of Theta (R92): `D[x]`, from the parities. -/
def columnEffect (C : Vector Lane 5) : Vector Lane 5 :=
  Vector.ofFn fun x : Fin 5 =>
    C[(x.val + 4) % 5]'(Nat.mod_lt _ (by decide)) ^^^ rotl64 (C[(x.val + 1) % 5]'(Nat.mod_lt _ (by decide))) 1

/-- Theta (R92): every parity is formed from the lanes before the step, then `D[x]` goes into every lane of column `x`. -/
@[irreducible] def theta (A : Lanes) : Lanes :=
  let D := columnEffect (columnParity A)
  Vector.ofFn fun i : Fin 25 => A[i.val] ^^^ D[i.val % 5]'(Nat.mod_lt _ (by decide))

/-- The carry walk of R93 along the pairs `(PI[t], RHO[t])`: save the target lane, overwrite it with the rotated carry,
carry the saved lane on. -/
def carryWalk : List (Fin 25 × Fin 64) → Lanes → Lane → Lanes
  | [], A, _ => A
  | (target, amount) :: rest, A, carry => carryWalk rest (A.set target.val (rotl64 carry amount.val)) A[target.val]

/-- Fused Rho/Pi (R93): 24 steps in table order, the carry starting from lane 1 (R185). -/
@[irreducible] def rhoPi (A : Lanes) : Lanes := carryWalk (PI.toList.zip RHO.toList) A A[1]

/-- Unfused Rho/Pi (R94): lane `i`, rotated by `ROT[i]`, goes to lane `DST[i]`. -/
@[irreducible] def rhoPiUnfused (A : Lanes) : Lanes :=
  (List.finRange 25).foldl (fun B i => B.set DST[i].val (rotl64 A[i.val] ROT[i].val)) A

/-- Chi (R95): lane `5y + x` from lanes `x`, `x+1`, `x+2` (mod 5) of its row as they were before the step. -/
@[irreducible] def chi (A : Lanes) : Lanes :=
  Vector.ofFn fun i : Fin 25 =>
    let y := i.val / 5
    let x := i.val % 5
    A[i.val] ^^^ (~~~(A[5 * y + (x + 1) % 5]'(by omega)) &&& A[5 * y + (x + 2) % 5]'(by omega))

/-- Iota (R96): the round constant goes into lane 0 only. -/
@[irreducible] def iota (r : Fin 24) (A : Lanes) : Lanes := A.set 0 (A[0] ^^^ RC[r.val])

/-- One round (R91, R97). -/
@[irreducible] def keccakRound (A : Lanes) (r : Fin 24) : Lanes := iota r (chi (rhoPi (theta A)))

/-- The permutation (R90, R98): rounds 0 to 23 in increasing order. -/
@[irreducible] def keccakF (A : Lanes) : Lanes := (List.finRange 24).foldl keccakRound A

end Sys2Proof.Machine
end

