-- ==== Sys2Proof/Machine/State.lean ====
section
/-! DEFINITION. The state of one instance of the keccak-rs CORE, its reset value and the reasons a step can stop
(rules R20 to R38, R161, R180). -/

namespace Sys2Proof.Machine

open Sys2Proof

/-- The 3-bit register PHASE (R25). The codes 5, 6 and 7 are never taken (R25), so they are no constructors. -/
inductive Phase where
  | idle | raw | absorb | ready | fault
  deriving DecidableEq, Repr

/-- The response codes (R161). -/
inductive RespCode where
  | ok | illegalCmd | badArg | badPhase | configFault | faulted
  deriving DecidableEq, Repr

/-- A response: one code and its data bytes (R71). -/
structure Response where
  code : RespCode
  data : List Byte
  deriving DecidableEq, Repr

/-- What the host can do to an instance (R9, R33): send a transaction (R71), or assert reset between commands (R180). -/
inductive HostAction where
  | command (word : CmdWord) (payload : List Byte)
  | reset
  deriving DecidableEq, Repr

/-- Why a step stops with a fault. -/
inductive Fault where
  /-- Raised by FINAL when BS >= 200: the state buffer has no such byte (R50). R24 and R55 show that no run gets there. (The
  operation that XORs a message block answers it too, but the operand check of ABSORB keeps every block inside the
  buffer.) Safe: the model stops. -/
  | outsideBuffer
  deriving DecidableEq, Repr

/-- Why a step has no meaning. -/
inductive Refusal where
  /-- An arm of exec that has no meaning yet; no arm is left so. Safe. -/
  | notModelled (mnemonic : String)
  /-- Raised by FINAL when RATE < 8 and by SQUEEZE when OUTLEN is 0 or above BYTE_RATE: a configuration for which the spec
  gives no meaning (R8). Never raised in the instance of R6. Safe: the model stops. -/
  | inadmissibleConfig
  deriving DecidableEq, Repr

/-- The state of an instance and of the host in front of it.

* `lanes`: the registers `A[0..24]`, one storage with the buffer `S[0..199]` (R20, R22).
* `bs`: the block-size counter BS (R24).
* `phase`: the phase register PHASE (R25). STATUS is computed from `phase` and `bs` (R26).
* `cfg`: the hardwired constants of the instance (R30); no step writes them (DESIGN CHOICE, assumption 2,
  safe).
* `response`: what the response port last returned (R71, R161); none before the first response after a reset
  (DESIGN CHOICE, assumption 8, unsafe).
* `host`: MODEL'S OWN (DESIGN CHOICE, assumption 1, safe). What the host will still do, first action
  first; the engine has no queue (R182).
* `freeCount`: MODEL'S OWN (DESIGN CHOICE, assumption 6, safe). How many free values have been taken. -/
structure State where
  lanes     : Lanes
  bs        : BitVec 8
  phase     : Phase
  cfg       : Config
  response  : Option Response
  host      : List HostAction
  freeCount : Nat
  deriving DecidableEq, Repr

/-- The answer of a meaning. -/
abbrev Result := Host.Outcome State Fault Refusal

/-- The machine right after reset (R34, R180): PHASE = IDLE, BS = 0, the constants of R6. The lanes have no value
(R35); DESIGN CHOICE: the model holds zeros there (assumption 5, unsafe), no response (assumption 8, unsafe), no host
action (assumption 1, safe) and the free-value counter at 0 (assumption 6, safe). -/
def State.reset : State where
  lanes     := Vector.replicate 25 0
  bs        := 0
  phase     := .idle
  cfg       := Config.keccak256
  response  := none
  host      := []
  freeCount := 0

end Sys2Proof.Machine
end

