-- ==== Sys2Proof/Machine/Operands.lean ====
section
/-! DEFINITION. The operand forms of the commands (rules R72 to R74, R78): each reads ARG and the payload together and
answers none where the command is refused with BAD_ARG (R162). -/

namespace Sys2Proof.Machine

open Sys2Proof

/-- No operand: ARG must be 0 and the payload empty (R73, R74). -/
def noOperand (arg : Byte) (payload : List Byte) : Option Unit :=
  if arg = 0 ∧ payload = [] then some () else none

/-- A round number: `0 <= r <= 23`, no payload (R73, R74, R96, R97). -/
def roundOperand (arg : Byte) (payload : List Byte) : Option (Fin 24) :=
  if h : arg.toNat < 24 then (if payload = [] then some ⟨arg.toNat, h⟩ else none) else none

/-- A whole state: ARG must be 0 and the payload exactly 200 bytes (R74, R110). -/
def stateOperand (arg : Byte) (payload : List Byte) : Option (Vector Byte 200) :=
  if h : payload.length = 200 then (if arg = 0 then some ⟨payload.toArray, by simpa using h⟩ else none) else none

/-- A message block: `1 <= n <= BYTE_RATE` with `n` = ARG, and exactly `n` payload bytes (R73, R74, R122). -/
def blockOperand (c : Config) (arg : Byte) (payload : List Byte) : Option (List Byte) :=
  if 1 ≤ arg.toNat ∧ arg.toNat ≤ c.byteRate ∧ payload.length = arg.toNat then some payload else none

end Sys2Proof.Machine
end

