-- ==== Sys2Proof/Machine/Ops.lean ====
section
/-! DEFINITION. The operations every meaning shares: responding, refusing, the checks before a command is performed, the
configuration check, entering the one fault, leaving it by reset, losing the lanes' value, and taking what the host
does next (rules R7, R8, R12, R35, R163 to R166, R180). -/

namespace Sys2Proof.Machine

open Sys2Proof

/-- `Respond(code, data)` (R12). -/
def State.respond (s : State) (code : RespCode) (data : List Byte) : State := { s with response := some ⟨code, data⟩ }

/-- `refuse(code)` (R12, R164): the response and no other change. -/
def State.refuse (s : State) (code : RespCode) : State := s.respond code []

/-- TAKING THE FAULT: `raise ConfigFault` (R12, R165). PHASE becomes FAULT and the response is CONFIG_FAULT; lanes and BS
are not written, nothing is saved, no handler is entered. DESIGN CHOICE: a next state, no stop (assumption 3, safe).
DEDUCED: the lanes keep their bits (assumption 7, unsafe). -/
def State.raiseConfigFault (s : State) : State := { s with phase := .fault }.respond .configFault []

/-- LEAVING IT: the reset input (R166, R180). Every register takes its reset value; the constants of the instance stay as
they are (R34). DESIGN CHOICE: zero lanes and no response (assumptions 5 and 8, unsafe). -/
def State.applyReset (s : State) : State :=
  { State.reset with cfg := s.cfg, host := s.host, freeCount := s.freeCount }

/-- Lanes without value (R35): lane `i` is free value number `n + i` (DESIGN CHOICE, assumption 6, safe). -/
@[irreducible] def valuelessLanes (n : Nat) : Lanes := Vector.ofFn fun i : Fin 25 => Config.freeLane (n + i.val)

/-- The lanes lose their value (R35): each takes a fresh free value. -/
def State.loseLanes (s : State) : State :=
  { s with lanes := valuelessLanes s.freeCount, freeCount := s.freeCount + 25 }

/-- The configuration invariant that INIT asserts (R7, R121, R131): an exact sum, and a rate of whole bytes. -/
def configValid (c : Config) : Bool := c.rate.val + c.capacity.val == 1600 && c.rate.val % 8 == 0

/-- One squeeze block gives the digest: `1 <= OUTLEN <= BYTE_RATE` (R8). -/
def outlenAdmissible (c : Config) : Bool := decide (1 ≤ c.outlen.toNat) && decide (c.outlen.toNat ≤ c.byteRate)

/-- The configurations the spec gives a meaning to (R8). -/
def configAdmissible (c : Config) : Bool := configValid c && decide (8 ≤ c.rate.val) && outlenAdmissible c

/-- The checks every command but RDSTATUS passes before it is performed, in the order of R163: the operand (BAD_ARG),
phase FAULT (FAULTED), the command's own phase (BAD_PHASE). -/
def accept {α : Type} (operand : Option α) (phaseLegal : Bool) (perform : α → Result) (s : State) : Result :=
  match operand with
  | none => .next (s.refuse .badArg)
  | some a =>
    if s.phase = .fault then .next (s.refuse .faulted)
    else if phaseLegal then perform a
    else .next (s.refuse .badPhase)

/-- What the host does next, and the state with that action taken; none when the host does nothing more. -/
def State.takeAction (s : State) : Option (HostAction × State) :=
  match s.host with
  | [] => none
  | a :: rest => some (a, { s with host := rest })

/-- The host presents one more transaction, before all it would otherwise do. -/
def State.present (s : State) (word : CmdWord) (payload : List Byte) : State :=
  { s with host := .command word payload :: s.host }

end Sys2Proof.Machine
end

