-- ==== Sys2Proof/Machine/Permutation.lean ====
section
/-! DEFINITION. The six commands of the permutation engine: THETA, RHOPI, CHI, IOTA, ROUND, PERMUTE (rules R92 to R99). -/

namespace Sys2Proof.Machine

open Sys2Proof

/-- Perform a step of the engine on the lanes and respond OK with no data (R99); PHASE and BS stay. -/
def State.permuteLanes (s : State) (f : Lanes → Lanes) : State := { s with lanes := f s.lanes }.respond .ok []

/-- A raw engine command: legal only in phase RAW (R99, R170). -/
def rawStep {α : Type} (operand : Option α) (f : α → Lanes → Lanes) (s : State) : Result :=
  accept operand (s.phase == .raw) (fun a => .next (s.permuteLanes (f a))) s

/-- THETA (R92). -/
def execTheta (arg : Byte) (payload : List Byte) (s : State) : Result :=
  rawStep (noOperand arg payload) (fun _ => theta) s

/-- RHOPI (R93). -/
def execRhopi (arg : Byte) (payload : List Byte) (s : State) : Result :=
  rawStep (noOperand arg payload) (fun _ => rhoPi) s

/-- CHI (R95). -/
def execChi (arg : Byte) (payload : List Byte) (s : State) : Result :=
  rawStep (noOperand arg payload) (fun _ => chi) s

/-- IOTA (R96). -/
def execIota (arg : Byte) (payload : List Byte) (s : State) : Result :=
  rawStep (roundOperand arg payload) iota s

/-- ROUND (R97). -/
def execRound (arg : Byte) (payload : List Byte) (s : State) : Result :=
  rawStep (roundOperand arg payload) (fun r A => keccakRound A r) s

/-- PERMUTE (R98). -/
def execPermute (arg : Byte) (payload : List Byte) (s : State) : Result :=
  rawStep (noOperand arg payload) (fun _ => keccakF) s

end Sys2Proof.Machine
end

