-- ==== Sys2Proof/Machine/Buffer.lean ====
section
/-! DEFINITION. The lanes as the 200-byte state buffer: byte access, the two conversions, block reads and XORs, and the
buffer as canonical memory cells (rules R12, R22, R50 to R56, R112). -/

namespace Sys2Proof.Machine

open Sys2Proof

/-- `S[k]`: byte `k mod 8` of lane `k div 8` (R12, R22, R51). -/
def byteAt (A : Lanes) (k : Fin 200) : Byte := (A[k.val / 8]'(by omega)).extractLsb' (8 * (k.val % 8)) 8

/-- `S[k] <- b`: those 8 bits of lane `k div 8`, its other 56 bits unchanged (R12, R56). -/
def setByte (A : Lanes) (k : Fin 200) (b : Byte) : Lanes :=
  A.set (k.val / 8)
    (((A[k.val / 8]'(by omega)) &&& ~~~(0xFF#64 <<< (8 * (k.val % 8)))) ||| (b.setWidth 64 <<< (8 * (k.val % 8))))
    (by omega)

/-- `S[k] ^<- b` (R12). -/
def xorByte (A : Lanes) (k : Fin 200) (b : Byte) : Lanes := setByte A k (byteAt A k ^^^ b)

/-- `bytes_to_lanes` (R52): each run of 8 bytes is one little-endian lane. -/
@[irreducible] def bytesToLanes (B : Vector Byte 200) : Lanes :=
  Vector.ofFn fun i : Fin 25 =>
    (B[8 * i.val]).setWidth 64 ||| (B[8 * i.val + 1]).setWidth 64 <<< 8 |||
    (B[8 * i.val + 2]).setWidth 64 <<< 16 ||| (B[8 * i.val + 3]).setWidth 64 <<< 24 |||
    (B[8 * i.val + 4]).setWidth 64 <<< 32 ||| (B[8 * i.val + 5]).setWidth 64 <<< 40 |||
    (B[8 * i.val + 6]).setWidth 64 <<< 48 ||| (B[8 * i.val + 7]).setWidth 64 <<< 56

/-- `lanes_to_bytes` (R53): the bytes of each lane, least significant first, in lane order. -/
def lanesToBytes (A : Lanes) : List Byte := (List.finRange 200).map (byteAt A)

/-- `MemRead(k, n)`, for `k + n <= 200` (R12). DESIGN CHOICE: beyond byte 199 it gives no more bytes (assumption 17,
unsafe). -/
def memRead (A : Lanes) (k n : Nat) : List Byte := ((lanesToBytes A).drop k).take n

/-- `S[k] ^<- b` at a computed address; none when the buffer has no byte `k` (R50). -/
def xorAt (A : Lanes) (k : Nat) (b : Byte) : Option Lanes :=
  if h : k < 200 then some (xorByte A ⟨k, h⟩ b) else none

/-- XOR a byte list into the buffer from byte `k` on, in increasing address order (R56); none when it leaves the buffer. -/
def xorFrom (A : Lanes) (k : Nat) : List Byte → Option Lanes
  | [] => some A
  | b :: rest =>
    match xorAt A k b with
    | some A' => xorFrom A' (k + 1) rest
    | none => none

/-- A memory written out: address and byte pairs. -/
abbrev Memory := List Host.Cell

/-- The canonical form: addresses strictly rising inside the address space 0..199 (R50), and no entry equal to what an
unlisted address reads as (0). -/
abbrev Memory.wf (m : Memory) : Prop :=
  (m.map Prod.fst).Pairwise (· < ·) ∧ ∀ c ∈ m, c.1 < 200 ∧ c.2 ≠ 0

/-- The byte at address `a`: none outside the address space (R50), 0 where the list has no entry. -/
def Memory.read (m : Memory) (a : Nat) : Option Byte :=
  if a < 200 then some ((m.lookup a).getD 0) else none

/-- The state buffer written out as canonical memory (R22, R50). -/
def bufferCells (A : Lanes) : Memory :=
  (List.finRange 200).filterMap fun k => if byteAt A k = 0 then none else some (k.val, byteAt A k)

end Sys2Proof.Machine
end

