-- ==== Sys2Proof/Machine/Sponge.lean ====
section
/-! DEFINITION. The sponge commands INIT, ABSORB, FINAL and SQUEEZE (rules R120 to R133). -/

namespace Sys2Proof.Machine

open Sys2Proof

/-- INIT performed (R121): the configuration check comes first, then the lanes are zeroed. -/
def State.initialise (s : State) : State :=
  if configValid s.cfg then
    { s with lanes := Vector.replicate 25 0, bs := 0, phase := .absorb }.respond .ok []
  else s.raiseConfigFault

/-- INIT (R121): accepted in every phase but FAULT. -/
def execInit (arg : Byte) (payload : List Byte) (s : State) : Result :=
  accept (noOperand arg payload) true (fun _ => .next s.initialise) s

/-- A full block has just been absorbed: permute and reset the counter; otherwise nothing (R122). -/
def State.permuteIfFull (s : State) : State :=
  if s.bs.toNat = s.cfg.byteRate then { s with lanes := keccakF s.lanes, bs := 0 } else s

/-- ABSORB performed (R122): XOR the block into the buffer from byte 0, set BS, permute after a full block. -/
def State.absorbBlock (s : State) (block : List Byte) : Result :=
  match xorFrom s.lanes 0 block with
  | some A => .next ({ s with lanes := A, bs := BitVec.ofNat 8 block.length }.permuteIfFull.respond .ok [])
  | none => .fault .outsideBuffer

/-- ABSORB (R122): legal only in phase ABSORB with BS = 0. -/
def execAbsorb (arg : Byte) (payload : List Byte) (s : State) : Result :=
  accept (blockOperand s.cfg arg payload) (s.phase == .absorb && s.bs == 0) s.absorbBlock s

/-- The padding of R123: SUFFIX into byte BS, then 0x80 into the last byte of the rate window. -/
def padLanes (c : Config) (bs : Nat) (A : Lanes) : Option Lanes :=
  match xorAt A bs c.suffix with
  | some A' => xorAt A' (c.byteRate - 1) 0x80
  | none => none

/-- FINAL performed (R123). Without a whole byte of rate there is no byte BYTE_RATE - 1, and the spec gives no meaning
(R8). DESIGN CHOICE: the model stops (assumption 9, safe). -/
def State.finalise (s : State) : Result :=
  if s.cfg.byteRate = 0 then .refused .inadmissibleConfig
  else
    match padLanes s.cfg s.bs.toNat s.lanes with
    | some A => .next ({ s with lanes := keccakF A, bs := 0, phase := .ready }.respond .ok [])
    | none => .fault .outsideBuffer

/-- FINAL (R123): legal only in phase ABSORB, whatever BS. -/
def execFinal (arg : Byte) (payload : List Byte) (s : State) : Result :=
  accept (noOperand arg payload) (s.phase == .absorb) (fun _ => s.finalise) s

/-- SQUEEZE performed (R124): the first OUTLEN bytes are the data, then the lanes lose their value. A digest of no bytes
or of more than one block has no meaning in the spec (R8). -/
def State.squeezeDigest (s : State) : Result :=
  if outlenAdmissible s.cfg then
    .next ({ s.loseLanes with bs := 0, phase := .idle }.respond .ok (memRead s.lanes 0 s.cfg.outlen.toNat))
  else .refused .inadmissibleConfig

/-- SQUEEZE (R124): legal only in phase READY. -/
def execSqueeze (arg : Byte) (payload : List Byte) (s : State) : Result :=
  accept (noOperand arg payload) (s.phase == .ready) (fun _ => s.squeezeDigest) s

end Sys2Proof.Machine
end

