-- ==== Sys2Proof/Machine/Flags.lean ====
section
/-! DEFINITION. What the host can see of the machine's status: the codes of PHASE and of the responses, and the composite
STATUS (rules R25, R26, R161). The hardware has no condition codes (R36), so there is no flag computation. -/

namespace Sys2Proof.Machine

open Sys2Proof

/-- The value of the register PHASE (R25). -/
def phaseCode : Phase → BitVec 3
  | .idle => 0
  | .raw => 1
  | .absorb => 2
  | .ready => 3
  | .fault => 4

/-- The code byte of a response (R161). -/
def respByte : RespCode → Byte
  | .ok => 0x00
  | .illegalCmd => 0x01
  | .badArg => 0x02
  | .badPhase => 0x03
  | .configFault => 0x04
  | .faulted => 0x05

/-- A response as the bytes the host receives: the code byte, then the data (R71). -/
def responseBytes (r : Response) : List Byte := respByte r.code :: r.data

/-- STATUS (R26): PHASE in bits 2:0, zeros in bits 7:3, BS in bits 15:8. -/
def statusWord (s : State) : BitVec 16 := s.bs ++ (0 : BitVec 5) ++ phaseCode s.phase

/-- STATUS as RDSTATUS returns it (R141): the low byte first. -/
def statusBytes (s : State) : List Byte :=
  [(statusWord s).extractLsb' 0 8, (statusWord s).extractLsb' 8 8]

end Sys2Proof.Machine
end

