-- ==== Sys2Proof/Machine/System.lean ====
section
/-! DEFINITION. The system command RDSTATUS (rule R141). -/

namespace Sys2Proof.Machine

open Sys2Proof

/-- RDSTATUS (R141): answers in every phase, FAULT included; no state changes. -/
def execRdstatus (arg : Byte) (payload : List Byte) (s : State) : Result :=
  match noOperand arg payload with
  | some _ => .next (s.respond .ok (statusBytes s))
  | none => .next (s.refuse .badArg)

end Sys2Proof.Machine
end

