-- ==== Sys2Proof/Machine/Transfer.lean ====
section
/-! DEFINITION. The state transfer commands LDSTATE and RDSTATE (rules R110 to R112). -/

namespace Sys2Proof.Machine

open Sys2Proof

/-- LDSTATE (R110): accepted in every phase but FAULT. -/
def execLdstate (arg : Byte) (payload : List Byte) (s : State) : Result :=
  accept (stateOperand arg payload) true
    (fun B => .next ({ s with lanes := bytesToLanes B, bs := 0, phase := .raw }.respond .ok [])) s

/-- RDSTATE (R111): legal only in phase RAW; no state changes. -/
def execRdstate (arg : Byte) (payload : List Byte) (s : State) : Result :=
  accept (noOperand arg payload) (s.phase == .raw) (fun _ => .next (s.respond .ok (lanesToBytes s.lanes))) s

end Sys2Proof.Machine
end

