-- ==== Sys2Proof/Machine/Dispatch.lean ====
section
/-! DEFINITION. One arm per command of rule R72. -/

namespace Sys2Proof.Machine

open Sys2Proof

def exec (i : Instr) (s : State) : Host.Outcome State Fault Refusal :=
  match i with
  -- the permutation engine
  | .theta arg payload => Sys2Proof.Machine.execTheta arg payload s
  | .rhopi arg payload => Sys2Proof.Machine.execRhopi arg payload s
  | .chi arg payload => Sys2Proof.Machine.execChi arg payload s
  | .iota arg payload => Sys2Proof.Machine.execIota arg payload s
  | .round arg payload => Sys2Proof.Machine.execRound arg payload s
  | .permute arg payload => Sys2Proof.Machine.execPermute arg payload s
  -- state transfer
  | .ldstate arg payload => Sys2Proof.Machine.execLdstate arg payload s
  | .rdstate arg payload => Sys2Proof.Machine.execRdstate arg payload s
  -- the sponge
  | .init arg payload => Sys2Proof.Machine.execInit arg payload s
  | .absorb arg payload => Sys2Proof.Machine.execAbsorb arg payload s
  | .final arg payload => Sys2Proof.Machine.execFinal arg payload s
  | .squeeze arg payload => Sys2Proof.Machine.execSqueeze arg payload s
  -- system
  | .rdstatus arg payload => Sys2Proof.Machine.execRdstatus arg payload s

end Sys2Proof.Machine
end

