-- ==== Sys2Proof/Machine/Step.lean ====
section
/-! DEFINITION. One step of an instance and its host: the host's next action, whole (rules R9, R57, R61, R83, R180). -/

namespace Sys2Proof.Machine

open Sys2Proof

/-- One step. A transaction is decoded and its command executed, or refused with ILLEGAL_CMD (R77, R83); a reset is
applied between commands (R180); where the host does nothing the engine keeps its state (R175). -/
def step (s : State) : Host.Outcome State Fault Refusal :=
  match s.takeAction with
  | none => .next s
  | some (.reset, s') => .next s'.applyReset
  | some (.command word payload, s') =>
    match decode word payload with
    | .ok i => exec i s'
    | .error _ => .next (s'.refuse .illegalCmd)

/-- `s` with the instruction whose bits are `w` as the host's next transaction (assumption 1). -/
def State.withFetchWord (s : State) (nbits w : Nat) : State :=
  s.present (tableWord nbits w) (tablePayload nbits w)

end Sys2Proof.Machine
end

