-- ==== Sys2Proof/Machine/Macro.lean ====
section
/-! DEFINITION. The pseudo-instruction KECCAK256 as the host expands it (rules R82, R125, R140). -/

namespace Sys2Proof.Machine

open Sys2Proof

/-- A command as the host sends it (R70, R71). -/
def send (i : Instr) : HostAction := .command (encode i) i.payload

/-- One ABSORB of a whole block (R125). DESIGN CHOICE: ARG is the length mod 256; a block of more than 255 bytes exists only
where BYTE_RATE is 0 (assumption 17, unsafe). -/
def sendBlock (block : List Byte) : HostAction := send (.absorb (BitVec.ofNat 8 block.length) block)

/-- Block `j` of a message, `n` bytes long or what is left (R125). -/
def messageBlock (n j : Nat) (M : List Byte) : List Byte := (M.drop (j * n)).take n

/-- The block walk of R125: the `L div BYTE_RATE` full blocks, then the partial block if there is one.
DESIGN CHOICE: where BYTE_RATE is 0 (RATE < 8) the spec gives the walk no meaning (R8, D31, N13); here a message that is
not empty is then one block (assumption 17, unsafe). -/
def messageBlocks (c : Config) (M : List Byte) : List (List Byte) :=
  (List.range (M.length / c.byteRate)).map (fun j => messageBlock c.byteRate j M)
    ++ (if M.length % c.byteRate = 0 then [] else [M.drop (M.length / c.byteRate * c.byteRate)])

/-- `KECCAK256 [M]` (R140): INIT, one ABSORB a block, FINAL, SQUEEZE. Where BYTE_RATE is 0, as `messageBlocks` chooses
(assumption 17). -/
def keccak256Actions (c : Config) (M : List Byte) : List HostAction :=
  send (.init 0 []) :: (messageBlocks c M).map sendBlock ++ [send (.final 0 []), send (.squeeze 0 [])]

end Sys2Proof.Machine
end

