-- ==== Sys2Proof/Safety.lean ====
section
/-! DEFINITION. The terms claims are stated in: the invariant of the reachable states (rules R24, R25, R75, R161, R165,
R170), the digest as a function of the message alone (rules R120 to R132), and what two states share when the lanes
have no value (rule R35). -/

namespace Sys2Proof

open Sys2Proof.Machine

/-- BS is 0 outside phase ABSORB, and below BYTE_RATE inside it (R24). -/
abbrev blockSizeInv (s : State) : Prop := s.bs = 0 ∨ (s.phase = .absorb ∧ s.bs.toNat < s.cfg.byteRate)

/-- A sponge computation only runs under a valid configuration, and the fault only under an invalid one (R165, R170). -/
abbrev phaseInv (s : State) : Prop :=
  (s.phase = .absorb ∨ s.phase = .ready → configValid s.cfg = true) ∧ (s.phase = .fault → configValid s.cfg = false)

/-- A response that is not OK carries no data bytes (R75, R161). -/
def responseInv (s : State) : Bool :=
  match s.response with
  | some ⟨.ok, _⟩ => true
  | some ⟨_, data⟩ => data.isEmpty
  | none => true

/-- The invariant of the machine. -/
abbrev Inv (s : State) : Prop := blockSizeInv s ∧ phaseInv s ∧ responseInv s = true

/-- The configurations the spec speaks of: those INIT finds invalid, and the admissible ones (R7, R8). -/
abbrev configCovered (c : Config) : Prop := configValid c = true → configAdmissible c = true

/-- The padding after `p` bytes of the last block (R132): SUFFIX first, 0x80 last, zeros between, the two combined
where they meet (R129). DESIGN CHOICE: empty where BYTE_RATE is 0 (assumption 17, unsafe). -/
def padding (c : Config) (p : Nat) : List Byte :=
  (List.range (c.byteRate - p)).map fun j =>
    (if j = 0 then c.suffix else 0) ^^^ (if j + 1 = c.byteRate - p then 0x80 else 0)

/-- The message, padded to a whole number of blocks. -/
def paddedMessage (c : Config) (M : List Byte) : List Byte := M ++ padding c (M.length % c.byteRate)

/-- XOR a block into the state from byte 0 on, all bytes at once (R133). DESIGN CHOICE: bytes of a block past the buffer are
dropped; no block of the spec has any (assumption 17, unsafe). -/
def xorWindow (A : Lanes) (block : List Byte) : Lanes :=
  bytesToLanes (Vector.ofFn fun k : Fin 200 => byteAt A k ^^^ block.getD k.val 0)

/-- Absorb the first `n` blocks of `r` bytes, permuting after each (R3, R120). -/
def absorbBlocks (r : Nat) (A : Lanes) : Nat → List Byte → Lanes
  | 0, _ => A
  | n + 1, bytes => absorbBlocks r (keccakF (xorWindow A (bytes.take r))) n (bytes.drop r)

/-- The digest of a message as a function of the message (R2, R3, R120): pad, absorb every block into the zero state,
read OUTLEN bytes. Outside the admissible configurations the spec gives no digest (R8), and the value here is a DESIGN
CHOICE (assumption 17, unsafe). -/
def spongeDigest (c : Config) (M : List Byte) : List Byte :=
  memRead (absorbBlocks c.byteRate (Vector.replicate 25 0) (M.length / c.byteRate + 1) (paddedMessage c M)) 0 c.outlen.toNat

/-- The lanes hold no value in phases IDLE and FAULT (R35). -/
abbrev lanesValueless (s : State) : Prop := s.phase = .idle ∨ s.phase = .fault

/-- Two states that differ at most in lanes without value, and in how many free values were taken (R35). -/
abbrev SameButValueless (s t : State) : Prop :=
  s.bs = t.bs ∧ s.phase = t.phase ∧ s.cfg = t.cfg ∧ s.response = t.response ∧ s.host = t.host ∧
    (lanesValueless s ∨ s.lanes = t.lanes)

/-- The response code a result reports, if it is a next state that has responded. -/
def codeOf (r : Result) : Option RespCode :=
  match r with
  | .next t => t.response.map Response.code
  | _ => none

/-- Perform commands one after the other, stopping where one stops. -/
def execAll : List Instr → State → (Instr → State → Result) → Result
  | [], s, _ => .next s
  | i :: rest, s, perform =>
    match perform i s with
    | .next t => execAll rest t perform
    | r => r

end Sys2Proof
end

