-- ==== Sys2Proof/Certificates/Slice0/Obligations.lean ====
section
/-! DEFINITION. The statements for the provers, each from the rules its docstring cites. -/

open Sys2Proof Sys2Proof.Machine

/-! ### Terms the statements share -/

/-- `n` steps of the machine. -/
def Sys2Proof.Claims.run (n : Nat) (s : State) : Result := Host.Core.run Sys2Proof.core n s

/-- The answer "nothing but this response". -/
def Sys2Proof.Claims.answers (s : State) (code : RespCode) : Result := .next { s with response := some ⟨code, []⟩ }

/-- The lanes all equal to `v`. -/
def Sys2Proof.Claims.uniform (v : Lane) : Lanes := Vector.replicate 25 v

/-- The six commands of the engine, with what they take as ARG (R99). -/
def Sys2Proof.Claims.isEngineCommand : Instr → Bool
  | .theta _ _ | .rhopi _ _ | .chi _ _ | .iota _ _ | .round _ _ | .permute _ _ => true
  | .ldstate _ _ | .rdstate _ _ | .init _ _ | .absorb _ _ | .final _ _ | .squeeze _ _ | .rdstatus _ _ => false

/-- A command `mk` without operand that is legal in phase RAW only (R99) and there puts `f` of the lanes into the lanes
and changes nothing else but the response. -/
def Sys2Proof.Claims.rawCommand (mk : Byte → List Byte → Instr) (f : Lanes → Lanes) : Prop :=
  ∀ s : State,
    (s.phase = .raw → exec (mk 0 []) s = .next { s with lanes := f s.lanes, response := some ⟨.ok, []⟩ }) ∧
    (s.phase ≠ .raw → exec (mk 0 []) s = Claims.answers s (if s.phase = .fault then .faulted else .badPhase)) ∧
    (∀ arg payload, ¬(arg = 0 ∧ payload = []) → exec (mk arg payload) s = Claims.answers s .badArg)

/-- The table of R170 for a well-formed command: the response and the next phase, from the phase, whether the
configuration is valid, and whether BS is 0. -/
def Sys2Proof.Claims.phaseTable (i : Instr) (p : Phase) (valid bsZero : Bool) : RespCode × Phase :=
  match i with
  | .theta _ _ | .rhopi _ _ | .chi _ _ | .iota _ _ | .round _ _ | .permute _ _ | .rdstate _ _ =>
    match p with
    | .idle => (.badPhase, .idle)
    | .raw => (.ok, .raw)
    | .absorb => (.badPhase, .absorb)
    | .ready => (.badPhase, .ready)
    | .fault => (.faulted, .fault)
  | .ldstate _ _ =>
    match p with
    | .idle | .raw | .absorb | .ready => (.ok, .raw)
    | .fault => (.faulted, .fault)
  | .init _ _ =>
    match p with
    | .idle | .raw | .absorb | .ready => if valid then (.ok, .absorb) else (.configFault, .fault)
    | .fault => (.faulted, .fault)
  | .absorb _ _ =>
    match p with
    | .idle => (.badPhase, .idle)
    | .raw => (.badPhase, .raw)
    | .absorb => if bsZero then (.ok, .absorb) else (.badPhase, .absorb)
    | .ready => (.badPhase, .ready)
    | .fault => (.faulted, .fault)
  | .final _ _ =>
    match p with
    | .idle => (.badPhase, .idle)
    | .raw => (.badPhase, .raw)
    | .absorb => (.ok, .ready)
    | .ready => (.badPhase, .ready)
    | .fault => (.faulted, .fault)
  | .squeeze _ _ =>
    match p with
    | .idle => (.badPhase, .idle)
    | .raw => (.badPhase, .raw)
    | .absorb => (.badPhase, .absorb)
    | .ready => (.ok, .idle)
    | .fault => (.faulted, .fault)
  | .rdstatus _ _ => (.ok, p)

/-- The data length `Q(OP)` of an OK response (R75). -/
def Sys2Proof.Claims.dataLength (c : Config) : Instr → Nat
  | .rdstate _ _ => 200
  | .squeeze _ _ => c.outlen.toNat
  | .rdstatus _ _ => 2
  | .theta _ _ | .rhopi _ _ | .chi _ _ | .iota _ _ | .round _ _ | .permute _ _ | .ldstate _ _ | .init _ _
  | .absorb _ _ | .final _ _ => 0

/-- The 13 opcodes of R72. -/
def Sys2Proof.Claims.legalOpcodes : List Byte :=
  [0x10, 0x11, 0x12, 0x13, 0x14, 0x15, 0x20, 0x21, 0x30, 0x31, 0x32, 0x33, 0x40]

/-! ### Encoding -/

/-- Words written out from R70, R72, R81 and R84 decode to the commands they stand for. -/
def Obligations.WrittenWordsDecode : Prop :=
  decode 0x1000 [] = .ok (.theta 0 []) ∧ decode 0x1317 [] = .ok (.iota 23 []) ∧
  decode 0x1400 [] = .ok (.round 0 []) ∧ decode 0x2100 [] = .ok (.rdstate 0 []) ∧
  decodeBytes [0x31, 0x04, 0x41, 0x42, 0x43, 0x44] = .ok (.absorb 4 [0x41, 0x42, 0x43, 0x44]) ∧
  decodeBytes [0x33, 0x00] = .ok (.squeeze 0 []) ∧ decodeBytes [0x40, 0x00] = .ok (.rdstatus 0 []) ∧
  decodeBytes [0x00, 0x00] = .error .illegalCmd ∧ decodeBytes [0xFF, 0xFF] = .error .illegalCmd

/-- R70 to R73, R80: every command, with every ARG and every payload, is read back from what is sent for it, and a
transaction that is read as a command is exactly what is sent for that command. -/
def Obligations.TransactionsAndCommandsCorrespond : Prop :=
  (∀ i : Instr, decodeBytes (encodeBytes i) = .ok i) ∧
  (∀ (bytes : List Byte) (i : Instr), decodeBytes bytes = .ok i → encodeBytes i = bytes)

/-- R77: every opcode outside the table is illegal, 243 of them in the ranges the rule lists; the command is refused with
ILLEGAL_CMD whatever its payload, and no state changes. -/
def Obligations.IllegalOpcodesAreRefused : Prop :=
  (∀ op : Byte, op ∉ Claims.legalOpcodes ↔
    (op.toNat ≤ 0x0F ∨ (0x16 ≤ op.toNat ∧ op.toNat ≤ 0x1F) ∨ (0x22 ≤ op.toNat ∧ op.toNat ≤ 0x2F) ∨
      (0x34 ≤ op.toNat ∧ op.toNat ≤ 0x3F) ∨ 0x41 ≤ op.toNat)) ∧
  ((List.range 256).filter fun v => BitVec.ofNat 8 v ∉ Claims.legalOpcodes).length = 243 ∧
  opField 0x0000 ∉ Claims.legalOpcodes ∧ opField 0xFFFF ∉ Claims.legalOpcodes ∧
  (∀ (s : State) (w : CmdWord) (payload : List Byte) (rest : List HostAction),
    s.host = .command w payload :: rest → opField w ∉ Claims.legalOpcodes →
    step s = Claims.answers { s with host := rest } .illegalCmd)

/-! ### The step -/

/-- R9, R61, R83: when the host's next transaction decodes to a command, the step takes the transaction and executes that
command, and does nothing else. The host's list is the model's own (assumption 1). -/
def Obligations.StepExecutesTheDecodedCommand : Prop :=
  ∀ (s : State) (w : CmdWord) (payload : List Byte) (rest : List HostAction) (i : Instr),
    s.host = .command w payload :: rest → decode w payload = .ok i → step s = exec i { s with host := rest }

/-- R175, and the model's choice of assumption 1: with nothing from the host, the engine keeps its whole state. -/
def Obligations.IdleEngineKeepsItsState : Prop :=
  ∀ s : State, s.host = [] → step s = .next s

/-- R34: right after reset PHASE is IDLE, BS is 0, STATUS is 0x0000 and the constants are those of the instance (R6). -/
def Obligations.ResetStateHasTheResetValues : Prop :=
  State.reset.phase = .idle ∧ State.reset.bs = 0 ∧ statusWord State.reset = 0x0000 ∧
  State.reset.cfg.rate = 1088 ∧ State.reset.cfg.capacity = 512 ∧ State.reset.cfg.suffix = 0x01 ∧
  State.reset.cfg.outlen = 32 ∧ State.reset.cfg.byteRate = 136

/-- R180: the reset input sets PHASE to IDLE and BS to 0 from any phase and keeps the constants. THE MODEL'S CHOICE, and no
rule of the spec: that no response is held after it (assumption 8, DESIGN CHOICE, unsafe: R180 only says that an abandoned
command gives none), and that the whole states are equal in the second clause, which takes in the lanes (zeros,
assumption 5, DESIGN CHOICE, unsafe). Of PHASE, BS and the constants that clause is R180's: the state after reset does
not depend on the state before. -/
def Obligations.ResetActionResets : Prop :=
  (∀ (s : State) (rest : List HostAction), s.host = .reset :: rest →
    ∃ t, step s = .next t ∧ t.phase = .idle ∧ t.bs = 0 ∧ t.cfg = s.cfg ∧ t.response = none ∧ t.host = rest) ∧
  (∀ (s u : State) (rest : List HostAction), s.host = .reset :: rest → u.host = .reset :: rest →
    s.cfg = u.cfg → s.freeCount = u.freeCount → step s = step u)

/-! ### The invariant -/

/-- The invariant holds right after reset (R24, R34). Its part on the response rests on the model's choice of assumption 8
(none is held). -/
def Obligations.ResetMeetsTheInvariant : Prop := Inv State.reset ∧ configCovered State.reset.cfg

/-- R24, R75, R161, R165, R170: every step keeps the invariant: BS below BYTE_RATE in phase ABSORB and 0 elsewhere, a
sponge computation only under a valid configuration, the fault only under an invalid one, no data with a response that
is not OK. -/
def Obligations.StepKeepsTheInvariant : Prop :=
  ∀ s t : State, Inv s → step s = .next t → Inv t

/-- R83, R101, R177: nothing is stuck. From every state that meets the invariant, whatever the host does and however
long, the machine goes on. The premise on the configuration is R8's. -/
def Obligations.MachineNeverStops : Prop :=
  ∀ (n : Nat) (s : State), Inv s → configCovered s.cfg → ∃ t, Claims.run n s = .next t ∧ Inv t

/-- R8, R50, and the model's choice of assumption 9: the only stops. In a state of the invariant a command that does not
answer a next state is FINAL without a whole byte of rate or SQUEEZE without a digest of one block, and it is refused by name; both are. Outside the invariant
FINAL with BS >= 200 faults. -/
def Obligations.StopsAreInadmissibleConfigurations : Prop :=
  (∀ (i : Instr) (s : State), Inv s →
    (∃ t, exec i s = .next t) ∨
    (exec i s = .refused .inadmissibleConfig ∧
      ((i = .final 0 [] ∧ s.phase = .absorb ∧ s.cfg.byteRate = 0) ∨
       (i = .squeeze 0 [] ∧ s.phase = .ready ∧ outlenAdmissible s.cfg = false)))) ∧
  (∀ s : State, s.phase = .absorb → s.cfg.byteRate = 0 → exec (.final 0 []) s = .refused .inadmissibleConfig) ∧
  (∀ s : State, s.phase = .ready → outlenAdmissible s.cfg = false →
    exec (.squeeze 0 []) s = .refused .inadmissibleConfig) ∧
  (∀ s : State, s.phase = .absorb → s.cfg.byteRate ≠ 0 → 200 ≤ s.bs.toNat →
    exec (.final 0 []) s = .fault .outsideBuffer)

/-! ### Refusals, phases and the fault -/

/-- R170: the whole table of phases. A well-formed command gives the response and the next phase the table says. -/
def Obligations.PhaseTableHolds : Prop :=
  (∀ (i : Instr) (s : State), Inv s → configCovered s.cfg → i.wellFormed s.cfg = true →
    ∃ t data, exec i s = .next t ∧
      t.response = some ⟨(Claims.phaseTable i s.phase (configValid s.cfg) (s.bs == 0)).1, data⟩ ∧
      t.phase = (Claims.phaseTable i s.phase (configValid s.cfg) (s.bs == 0)).2) ∧
  (∀ (s : State) (rest : List HostAction), s.host = .reset :: rest → ∃ t, step s = .next t ∧ t.phase = .idle)

/-- R78: a legal opcode with an ARG outside its legal set, or a payload of another length (R74), is refused with BAD_ARG
in every phase and changes no state; the rule's two examples among them. -/
def Obligations.IllFormedCommandsAreRefused : Prop :=
  (∀ (i : Instr) (s : State), i.wellFormed s.cfg = false → exec i s = Claims.answers s .badArg) ∧
  (∃ i, decode 0x1001 [] = .ok i ∧ i.wellFormed Config.keccak256 = false) ∧
  (∃ i, decode 0x1318 [] = .ok i ∧ i.wellFormed Config.keccak256 = false)

/-- R163: of several causes the first in the order ILLEGAL_CMD, BAD_ARG, FAULTED, BAD_PHASE, CONFIG_FAULT is the
response. -/
def Obligations.FirstCauseIsTheResponse : Prop :=
  ∀ (s : State) (w : CmdWord) (payload : List Byte) (rest : List HostAction),
    s.host = .command w payload :: rest → Inv s → configCovered s.cfg →
    (opField w ∉ Claims.legalOpcodes → codeOf (step s) = some .illegalCmd) ∧
    (∀ i, decode w payload = .ok i →
      (i.wellFormed s.cfg = false → codeOf (step s) = some .badArg) ∧
      (i.wellFormed s.cfg = true → s.phase = .fault → i.opcode ≠ 0x40 → codeOf (step s) = some .faulted) ∧
      (i.wellFormed s.cfg = true → s.phase ≠ .fault →
        (Claims.phaseTable i s.phase true (s.bs == 0)).1 = .badPhase → codeOf (step s) = some .badPhase) ∧
      (i.wellFormed s.cfg = true → s.phase ≠ .fault → i.opcode = 0x30 → configValid s.cfg = false →
        codeOf (step s) = some .configFault))

/-- R164: a refused command changes no state at all, and the next command is treated as if it had never been sent. -/
def Obligations.RefusedCommandsLeaveNoTrace : Prop :=
  ∀ (s t : State) (w : CmdWord) (payload : List Byte) (rest : List HostAction) (r : Response),
    s.host = .command w payload :: rest → step s = .next t → t.response = some r →
    (r.code = .illegalCmd ∨ r.code = .badArg ∨ r.code = .badPhase ∨ r.code = .faulted) →
    r.data = [] ∧ t = { s with host := rest, response := some r } ∧ ∀ j : Instr, exec j t = exec j { s with host := rest }

/-- R165: the INIT that finds the configuration invalid sets PHASE to FAULT, responds CONFIG_FAULT and writes nothing
else; only INIT raises it, only from IDLE or RAW, where BS is 0, so that RDSTATUS then returns 04 00. -/
def Obligations.ConfigFaultEntry : Prop :=
  (∀ s : State, s.phase ≠ .fault → configValid s.cfg = false →
    exec (.init 0 []) s = .next { s with phase := .fault, response := some ⟨.configFault, []⟩ }) ∧
  (∀ (i : Instr) (s : State), Inv s → codeOf (exec i s) = some .configFault →
    i = .init 0 [] ∧ (s.phase = .idle ∨ s.phase = .raw) ∧ s.bs = 0 ∧
    ∃ t u, exec i s = .next t ∧ exec (.rdstatus 0 []) t = .next u ∧ u.response = some ⟨.ok, [0x04, 0x00]⟩)

/-- R166: phase FAULT is left by reset only. Every well-formed command but RDSTATUS is refused with FAULTED, no command
leaves the phase, reset leaves it, and the first INIT after the reset faults again. -/
def Obligations.OnlyResetLeavesFault : Prop :=
  (∀ (i : Instr) (s : State), s.phase = .fault → i.wellFormed s.cfg = true → i.opcode ≠ 0x40 →
    exec i s = Claims.answers s .faulted) ∧
  (∀ (s t : State) (w : CmdWord) (payload : List Byte) (rest : List HostAction),
    s.phase = .fault → s.host = .command w payload :: rest → step s = .next t → t.phase = .fault) ∧
  (∀ (s : State) (rest : List HostAction), s.phase = .fault → s.host = .reset :: rest →
    ∃ t, step s = .next t ∧ t.phase = .idle) ∧
  (∀ (s : State) (rest : List HostAction), configValid s.cfg = false → s.host = .reset :: send (.init 0 []) :: rest →
    ∃ t, Claims.run 2 s = .next t ∧ t.phase = .fault ∧ t.response = some ⟨.configFault, []⟩)

/-! ### The permutation engine -/

/-- R99: the common precondition of the six engine commands. Accepted in RAW, they leave PHASE and BS (0 there) and respond
OK with no data; in any other phase they are refused and no lane changes. -/
def Obligations.EngineCommandsNeedPhaseRaw : Prop :=
  ∀ (i : Instr) (s : State), Claims.isEngineCommand i = true → i.wellFormed s.cfg = true →
    (s.phase = .raw →
      ∃ t, exec i s = .next t ∧ t.phase = .raw ∧ t.bs = s.bs ∧ (Inv s → t.bs = 0) ∧ t.response = some ⟨.ok, []⟩) ∧
    (s.phase ≠ .raw → exec i s = Claims.answers s (if s.phase = .fault then .faulted else .badPhase))

/-- R92 (with R11, R21, R99): THETA XORs `C[x-1] ^ rotl(C[x+1], 1)` into every lane of column `x`, every parity `C` taken
before any lane is written; the all-zero and the all-one state map to themselves. -/
def Obligations.ThetaMixesColumnParities : Prop :=
  ∃ f : Lanes → Lanes, Claims.rawCommand .theta f ∧
    (∀ (A : Lanes) (x y : Fin 5),
      let C : Fin 5 → Lane := fun z =>
        A[laneIndex z 0] ^^^ A[laneIndex z 1] ^^^ A[laneIndex z 2] ^^^ A[laneIndex z 3] ^^^ A[laneIndex z 4]
      (f A)[laneIndex x y] = A[laneIndex x y] ^^^ (C (x + 4) ^^^ (C (x + 1)).rotateLeft 1)) ∧
    f (Claims.uniform 0) = Claims.uniform 0 ∧
    f (Claims.uniform 0xFFFFFFFFFFFFFFFF) = Claims.uniform 0xFFFFFFFFFFFFFFFF

/-- R93 (with R28, R29, R99): RHOPI writes lane `PI[t]` with the original content of the lane of the step before (lane 1
for step 0), rotated by `RHO[t]`; lane 0 is untouched; a state whose other lanes are all 0 or all ones is unchanged. -/
def Obligations.RhopiWalksTheCarryLane : Prop :=
  ∃ f : Lanes → Lanes, Claims.rawCommand .rhopi f ∧
    (∀ A : Lanes, (f A)[0] = A[0]) ∧
    (∀ A : Lanes, (f A)[PI[0]] = (A[1] : Lane).rotateLeft RHO[0].val) ∧
    (∀ (A : Lanes) (t : Nat) (h : t + 1 < 24), (f A)[PI[t + 1]] = (A[PI[t]] : Lane).rotateLeft RHO[t + 1].val) ∧
    (∀ v : Lane, f ((Claims.uniform 0).set 0 v) = (Claims.uniform 0).set 0 v) ∧
    (∀ v : Lane, f ((Claims.uniform 0xFFFFFFFFFFFFFFFF).set 0 v) = (Claims.uniform 0xFFFFFFFFFFFFFFFF).set 0 v)

/-- R94 (an inference of the spec): the carry walk equals the unfused form with the per-lane tables, for every state; the
tables are those of the walk, and lane `(x, y)` goes to lane `(y, 2x + 3y)`. -/
def Obligations.FusedWalkEqualsUnfusedForm : Prop :=
  (∀ A : Lanes, rhoPi A = rhoPiUnfused A) ∧
  (∀ (A : Lanes) (i : Fin 25), (rhoPi A)[DST[i]] = (A[i] : Lane).rotateLeft ROT[i].val) ∧
  (∀ x y : Fin 5, DST[laneIndex x y] = laneIndex y (2 * x + 3 * y))

/-- R95 (with R99): CHI gives lane `(x, y)` the value `a ^ (~b & c)` of lanes `x`, `x+1`, `x+2` of its row as they were
before the command; the all-zero and the all-one state are unchanged. -/
def Obligations.ChiCombinesRows : Prop :=
  ∃ f : Lanes → Lanes, Claims.rawCommand .chi f ∧
    (∀ (A : Lanes) (x y : Fin 5),
      (f A)[laneIndex x y] = A[laneIndex x y] ^^^ (~~~A[laneIndex (x + 1) y] &&& A[laneIndex (x + 2) y])) ∧
    f (Claims.uniform 0) = Claims.uniform 0 ∧
    f (Claims.uniform 0xFFFFFFFFFFFFFFFF) = Claims.uniform 0xFFFFFFFFFFFFFFFF

/-- R96: IOTA XORs `RC[r]` into lane 0 and touches no other lane; a round number of 24 or more is BAD_ARG; outside phase
RAW it is refused; twice the same `r` restores the lanes; two pairs of rounds have the same constant. -/
def Obligations.IotaInjectsTheRoundConstant : Prop :=
  (∀ (s : State) (arg : Byte) (h : arg.toNat < 24), s.phase = .raw →
    exec (.iota arg []) s =
      .next { s with lanes := s.lanes.set 0 (s.lanes[0] ^^^ RC[arg.toNat]), response := some ⟨.ok, []⟩ }) ∧
  (∀ (s : State) (arg : Byte) (payload : List Byte), 24 ≤ arg.toNat ∨ payload ≠ [] →
    exec (.iota arg payload) s = Claims.answers s .badArg) ∧
  (∀ (s : State) (arg : Byte), arg.toNat < 24 → s.phase ≠ .raw →
    exec (.iota arg []) s = Claims.answers s (if s.phase = .fault then .faulted else .badPhase)) ∧
  (∀ (s : State) (arg : Byte), arg.toNat < 24 → s.phase = .raw →
    ∃ t u, exec (.iota arg []) s = .next t ∧ exec (.iota arg []) t = .next u ∧ u.lanes = s.lanes) ∧
  RC[5] = RC[22] ∧ RC[6] = RC[20]

/-- R91, R97 (its second sentence an inference of the spec): ROUND `r` completes in phase RAW, and its effect is that of
THETA, RHOPI, CHI and IOTA `r` one after the other. -/
def Obligations.RoundIsFourCommands : Prop :=
  ∀ (s : State) (arg : Byte), arg.toNat < 24 → s.phase = .raw →
    ∃ t, exec (.round arg []) s = .next t ∧
      execAll [.theta 0 [], .rhopi 0 [], .chi 0 [], .iota arg []] s exec = .next t ∧
      t = { s with lanes := t.lanes, response := some ⟨.ok, []⟩ }

/-- R98 (its second sentence an inference of the spec): PERMUTE completes in phase RAW, and its effect is that of ROUND 0
to ROUND 23 in increasing order. -/
def Obligations.PermuteIsTwentyFourRounds : Prop :=
  ∀ s : State, s.phase = .raw →
    ∃ t, exec (.permute 0 []) s = .next t ∧
      execAll ((List.range 24).map fun r => .round (BitVec.ofNat 8 r) []) s exec = .next t ∧
      t = { s with lanes := t.lanes, response := some ⟨.ok, []⟩ }

/-- R98, R102: PERMUTE does not leave the all-zero state as it was. -/
def Obligations.PermuteMovesTheZeroState : Prop :=
  ∀ s : State, s.phase = .raw → s.lanes = Claims.uniform 0 →
    ∃ t, exec (.permute 0 []) s = .next t ∧ t.lanes ≠ s.lanes

/-- R11, R100: rotation moves bit `i` to bit `(i + n) mod 64` and loses no bit. -/
def Obligations.RotationMovesBits : Prop :=
  (∀ (a : Lane) (n i : Nat), n < 64 → i < 64 → (rotl64 a n).getLsbD ((i + n) % 64) = a.getLsbD i) ∧
  (∀ (a : Lane) (n : Nat), 1 ≤ n → n ≤ 63 → rotl64 (rotl64 a n) (64 - n) = a)

/-- R27, R28, R29: the tables are what their generating rules produce, and have the properties the rules state. -/
def Obligations.TablesFollowTheirGeneratingRules : Prop :=
  (∀ r : Fin 24, RC[r] = rcGenerated r.val) ∧
  (∀ (r : Fin 24) (b : Fin 64), RC[r].getLsbD b.val = true → b.val ∈ [0, 1, 3, 7, 15, 31, 63]) ∧
  (∀ t : Fin 24, RHO[t].val = (t.val + 1) * (t.val + 2) / 2 % 64) ∧
  (∀ t : Fin 24, 1 ≤ RHO[t].val ∧ RHO[t].val ≤ 62) ∧
  (∀ t : Fin 24, PI[t].val = (piCoordinates (t.val + 1)).1 + 5 * (piCoordinates (t.val + 1)).2) ∧
  (∀ i : Fin 25, i.val ≠ 0 → ∃ t : Fin 24, PI[t] = i) ∧ (∀ t : Fin 24, PI[t].val ≠ 0) ∧ PI[23] = 1

/-! ### The buffer and state transfer -/

/-- R22, R51: lanes and bytes are one storage. A lane is its eight bytes, least significant first; a write through either
view is seen at once through the other. -/
def Obligations.LanesAndBytesAreOneStorage : Prop :=
  (∀ (A : Lanes) (i : Nat) (h : i < 25),
    A[i] =
      (byteAt A ⟨8 * i, by omega⟩).setWidth 64 ||| (byteAt A ⟨8 * i + 1, by omega⟩).setWidth 64 <<< 8 |||
      (byteAt A ⟨8 * i + 2, by omega⟩).setWidth 64 <<< 16 ||| (byteAt A ⟨8 * i + 3, by omega⟩).setWidth 64 <<< 24 |||
      (byteAt A ⟨8 * i + 4, by omega⟩).setWidth 64 <<< 32 ||| (byteAt A ⟨8 * i + 5, by omega⟩).setWidth 64 <<< 40 |||
      (byteAt A ⟨8 * i + 6, by omega⟩).setWidth 64 <<< 48 ||| (byteAt A ⟨8 * i + 7, by omega⟩).setWidth 64 <<< 56) ∧
  (∀ (A : Lanes) (k : Fin 200) (b : Byte) (i n : Nat) (h : i < 25), n < 64 →
    ((setByte A k b)[i]).getLsbD n =
      if 8 * k.val ≤ 64 * i + n ∧ 64 * i + n < 8 * k.val + 8 then b.getLsbD (64 * i + n - 8 * k.val)
      else (A[i]).getLsbD n) ∧
  (∀ (A : Lanes) (i : Fin 25) (v : Lane) (k : Fin 200),
    byteAt (A.set i.val v) k = if k.val / 8 = i.val then v.extractLsb' (8 * (k.val % 8)) 8 else byteAt A k)

/-- R54: the two conversions are mutually inverse; the rule's example. -/
def Obligations.ConversionsAreInverse : Prop :=
  (∀ (A : Lanes) (B : Vector Byte 200), B.toList = lanesToBytes A → bytesToLanes B = A) ∧
  (∀ B : Vector Byte 200, lanesToBytes (bytesToLanes B) = B.toList) ∧
  (∀ B : Vector Byte 200, B.toList.take 8 = [0x00, 0x01, 0x02, 0x03, 0x04, 0x05, 0x06, 0x07] →
    (bytesToLanes B)[0] = 0x0706050403020100)

/-- R22, R50 and the model's own memory form (assumption 4): the written-out buffer has exactly the addresses 0..199, and
equal written-out buffers are equal lanes. -/
def Obligations.WrittenOutBufferDeterminesTheLanes : Prop :=
  (∀ (A : Lanes) (a : Nat), 200 ≤ a → Memory.read (bufferCells A) a = none) ∧
  (∀ A B : Lanes, bufferCells A = bufferCells B → A = B)

/-- R110: LDSTATE of 200 bytes completes in every phase but FAULT; byte `k` of the buffer is payload byte `k`, BS is 0,
PHASE is RAW, nothing else changes. In FAULT it is refused with FAULTED, with another ARG or length with BAD_ARG. -/
def Obligations.LdstateLoadsThePayload : Prop :=
  (∀ (s : State) (payload : List Byte) (h : payload.length = 200), s.phase ≠ .fault →
    ∃ A : Lanes, (∀ k : Fin 200, byteAt A k = payload[k.val]) ∧
      exec (.ldstate 0 payload) s =
        .next { s with lanes := A, bs := 0, phase := .raw, response := some ⟨.ok, []⟩ }) ∧
  (∀ (s : State) (payload : List Byte), payload.length = 200 → s.phase = .fault →
    exec (.ldstate 0 payload) s = Claims.answers s .faulted) ∧
  (∀ (s : State) (arg : Byte) (payload : List Byte), arg ≠ 0 ∨ payload.length ≠ 200 →
    exec (.ldstate arg payload) s = Claims.answers s .badArg)

/-- R111: RDSTATE returns the 200 bytes in phase RAW and changes no state; elsewhere it is refused. -/
def Obligations.RdstateReturnsTheBuffer : Prop :=
  (∀ s : State, s.phase = .raw →
    ∃ data : List Byte, exec (.rdstate 0 []) s = .next { s with response := some ⟨.ok, data⟩ } ∧
      data.length = 200 ∧ ∀ k : Fin 200, data[k.val]? = some (byteAt s.lanes k)) ∧
  (∀ s : State, s.phase ≠ .raw →
    exec (.rdstate 0 []) s = Claims.answers s (if s.phase = .fault then .faulted else .badPhase)) ∧
  (∀ (s : State) (arg : Byte) (payload : List Byte), ¬(arg = 0 ∧ payload = []) →
    exec (.rdstate arg payload) s = Claims.answers s .badArg)

/-- R111 (corner case), R54: RDSTATE directly after LDSTATE returns the bytes loaded. -/
def Obligations.RdstateReadsBackLdstate : Prop :=
  ∀ (s : State) (payload : List Byte), payload.length = 200 → s.phase ≠ .fault →
    ∃ t u, exec (.ldstate 0 payload) s = .next t ∧ exec (.rdstate 0 []) t = .next u ∧
      u.response = some ⟨.ok, payload⟩

/-- R112 (an inference of the spec): on the lanes and BS, INIT equals LDSTATE of 200 zero bytes; it enters phase ABSORB
instead of RAW. -/
def Obligations.InitIsLdstateOfZeros : Prop :=
  ∀ s : State, s.phase ≠ .fault → configValid s.cfg = true →
    ∃ t u, exec (.init 0 []) s = .next t ∧ exec (.ldstate 0 (List.replicate 200 0)) s = .next u ∧
      t.lanes = u.lanes ∧ t.bs = u.bs ∧ t.phase = .absorb ∧ u.phase = .raw

/-! ### The sponge -/

/-- R121: INIT zeroes the lanes and BS and enters ABSORB when the configuration is valid; otherwise it raises the fault
and writes neither. Refusals as the rule lists them. -/
def Obligations.InitStartsASponge : Prop :=
  (∀ s : State, s.phase ≠ .fault →
    s.cfg.rate.val + s.cfg.capacity.val = 1600 → s.cfg.rate.val % 8 = 0 →
    exec (.init 0 []) s =
      .next { s with lanes := Claims.uniform 0, bs := 0, phase := .absorb, response := some ⟨.ok, []⟩ }) ∧
  (∀ s : State, s.phase ≠ .fault →
    ¬(s.cfg.rate.val + s.cfg.capacity.val = 1600 ∧ s.cfg.rate.val % 8 = 0) →
    exec (.init 0 []) s = .next { s with phase := .fault, response := some ⟨.configFault, []⟩ }) ∧
  (∀ s : State, s.phase = .fault → exec (.init 0 []) s = Claims.answers s .faulted) ∧
  (∀ (s : State) (arg : Byte) (payload : List Byte), ¬(arg = 0 ∧ payload = []) →
    exec (.init arg payload) s = Claims.answers s .badArg)

/-- R122 (with R90, R98 for the permutation): ABSORB XORs the block into bytes 0..n-1 and leaves bytes n..199; BS becomes
`n`, or the state is permuted and BS is 0 after a full block; PHASE stays. Refusals as the rule lists them. -/
def Obligations.AbsorbXorsOneBlock : Prop :=
  (∀ (s : State) (arg : Byte) (payload : List Byte), s.phase = .absorb → s.bs = 0 →
    1 ≤ arg.toNat → arg.toNat ≤ s.cfg.byteRate → payload.length = arg.toNat →
    ∃ A : Lanes,
      (∀ k : Fin 200, byteAt A k = if h : k.val < payload.length then byteAt s.lanes k ^^^ payload[k.val] else byteAt s.lanes k) ∧
      exec (.absorb arg payload) s =
        .next (if arg.toNat = s.cfg.byteRate then { s with lanes := keccakF A, bs := 0, response := some ⟨.ok, []⟩ }
          else { s with lanes := A, bs := arg, response := some ⟨.ok, []⟩ })) ∧
  (∀ (s : State) (arg : Byte) (payload : List Byte),
    arg.toNat = 0 ∨ s.cfg.byteRate < arg.toNat ∨ payload.length ≠ arg.toNat →
    exec (.absorb arg payload) s = Claims.answers s .badArg) ∧
  (∀ (s : State) (arg : Byte) (payload : List Byte),
    1 ≤ arg.toNat → arg.toNat ≤ s.cfg.byteRate → payload.length = arg.toNat →
    (s.phase = .fault → exec (.absorb arg payload) s = Claims.answers s .faulted) ∧
    (s.phase ≠ .fault → (s.phase ≠ .absorb ∨ s.bs ≠ 0) → exec (.absorb arg payload) s = Claims.answers s .badPhase))

/-- R123 (with R90, R98, R129): FINAL XORs SUFFIX into byte BS and 0x80 into byte BYTE_RATE - 1, the two combining where
they meet, permutes, sets BS to 0 and PHASE to READY. Refusals as the rule lists them. The premise BS < BYTE_RATE is
the invariant's. -/
def Obligations.FinalPadsAndPermutes : Prop :=
  (∀ s : State, s.phase = .absorb → s.bs.toNat < s.cfg.byteRate →
    ∃ A : Lanes,
      (∀ k : Fin 200, byteAt A k =
        if k.val = s.bs.toNat ∧ k.val = s.cfg.byteRate - 1 then byteAt s.lanes k ^^^ (s.cfg.suffix ^^^ 0x80)
        else if k.val = s.bs.toNat then byteAt s.lanes k ^^^ s.cfg.suffix
        else if k.val = s.cfg.byteRate - 1 then byteAt s.lanes k ^^^ 0x80
        else byteAt s.lanes k) ∧
      exec (.final 0 []) s =
        .next { s with lanes := keccakF A, bs := 0, phase := .ready, response := some ⟨.ok, []⟩ }) ∧
  (∀ s : State, s.phase ≠ .absorb →
    exec (.final 0 []) s = Claims.answers s (if s.phase = .fault then .faulted else .badPhase)) ∧
  (∀ (s : State) (arg : Byte) (payload : List Byte), ¬(arg = 0 ∧ payload = []) →
    exec (.final arg payload) s = Claims.answers s .badArg)

/-- R124: SQUEEZE returns the first OUTLEN bytes, sets BS to 0 and PHASE to IDLE; a second SQUEEZE is refused with
BAD_PHASE. What the lanes hold afterwards is a free value (assumption 6), so nothing is said of them. -/
def Obligations.SqueezeReturnsTheDigestOnce : Prop :=
  (∀ s : State, s.phase = .ready → outlenAdmissible s.cfg = true →
    ∃ t data, exec (.squeeze 0 []) s = .next t ∧ t.response = some ⟨.ok, data⟩ ∧ data.length = s.cfg.outlen.toNat ∧
      (∀ k : Fin 200, k.val < s.cfg.outlen.toNat → data[k.val]? = some (byteAt s.lanes k)) ∧
      t.bs = 0 ∧ t.phase = .idle ∧ t.cfg = s.cfg ∧ t.host = s.host ∧
      exec (.squeeze 0 []) t = Claims.answers t .badPhase) ∧
  (∀ s : State, s.phase ≠ .ready →
    exec (.squeeze 0 []) s = Claims.answers s (if s.phase = .fault then .faulted else .badPhase)) ∧
  (∀ (s : State) (arg : Byte) (payload : List Byte), ¬(arg = 0 ∧ payload = []) →
    exec (.squeeze arg payload) s = Claims.answers s .badArg)

/-- R120, R125, R140, R192 (in part inferences of the spec): the commands of KECCAK256, for every message of every length
and from every state outside FAULT, all respond OK, and the last returns the sponge digest of the message, whatever the
phase, BS and lanes were at the start. -/
def Obligations.Keccak256ComputesTheSpongeDigest : Prop :=
  ∀ (M : List Byte) (s : State) (rest : List HostAction), configAdmissible s.cfg = true → s.phase ≠ .fault →
    s.host = keccak256Actions s.cfg M ++ rest →
    (∀ n, 1 ≤ n → n ≤ (keccak256Actions s.cfg M).length → codeOf (Claims.run n s) = some .ok) ∧
    ∃ t, Claims.run (keccak256Actions s.cfg M).length s = .next t ∧
      t.response = some ⟨.ok, spongeDigest s.cfg M⟩ ∧ t.phase = .idle ∧ t.bs = 0 ∧ t.cfg = s.cfg ∧ t.host = rest

/-! ### Status -/

/-- R25, R26: the codes of the phases and the fields of STATUS. -/
def Obligations.StatusFields : Prop :=
  phaseCode .idle = 0 ∧ phaseCode .raw = 1 ∧ phaseCode .absorb = 2 ∧ phaseCode .ready = 3 ∧ phaseCode .fault = 4 ∧
  ∀ s : State, (statusWord s).extractLsb' 0 3 = phaseCode s.phase ∧ (statusWord s).extractLsb' 3 5 = 0 ∧
    (statusWord s).extractLsb' 8 8 = s.bs

/-- R141: RDSTATUS responds OK with PHASE and BS in every phase and changes no state; an ill-formed one is refused with
BAD_ARG. It is the only command that succeeds in phase FAULT, and between commands BS is non-zero only in phase
ABSORB. -/
def Obligations.RdstatusAnswersInEveryPhase : Prop :=
  (∀ s : State, exec (.rdstatus 0 []) s =
    .next { s with response := some ⟨.ok, [(phaseCode s.phase).setWidth 8, s.bs]⟩ }) ∧
  (∀ (s : State) (arg : Byte) (payload : List Byte), ¬(arg = 0 ∧ payload = []) →
    exec (.rdstatus arg payload) s = Claims.answers s .badArg) ∧
  (∀ (i : Instr) (s : State), s.phase = .fault → codeOf (exec i s) = some .ok → i = .rdstatus 0 []) ∧
  (∀ s : State, Inv s → s.bs ≠ 0 → s.phase = .absorb)

/-! ### The whole machine -/

/-- R20, R37: what no command of a kind writes. The constants and what the host will still do: no command. PHASE and BS:
no engine command, no RDSTATE, no RDSTATUS; PHASE: no ABSORB. Lane 0: no RHOPI; lanes 1..24: no IOTA; any lane: no
RDSTATE, no RDSTATUS; bytes n..199: no ABSORB of a partial block. Free values, a field of the model's own (assumption 6):
taken by SQUEEZE only. -/
def Obligations.CommandsWriteOnlyTheirOwnState : Prop :=
  ∀ (i : Instr) (s t : State), exec i s = .next t →
    t.cfg = s.cfg ∧ t.host = s.host ∧
    (Claims.isEngineCommand i = true ∨ i.opcode = 0x21 ∨ i.opcode = 0x40 → t.bs = s.bs ∧ t.phase = s.phase) ∧
    (i.opcode = 0x31 → t.phase = s.phase) ∧
    (i.opcode = 0x11 → t.lanes[0] = s.lanes[0]) ∧
    (i.opcode = 0x13 → ∀ k : Fin 25, k.val ≠ 0 → t.lanes[k] = s.lanes[k]) ∧
    (i.opcode = 0x21 ∨ i.opcode = 0x40 → t.lanes = s.lanes) ∧
    (i.opcode = 0x31 → i.arg.toNat < s.cfg.byteRate →
      ∀ k : Fin 200, i.arg.toNat ≤ k.val → byteAt t.lanes k = byteAt s.lanes k) ∧
    (i.opcode ≠ 0x33 → t.freeCount = s.freeCount)

/-- R142: no command, and no reset, sets RATE, CAPACITY, SUFFIX or OUTLEN, in any run. -/
def Obligations.NothingWritesTheConfiguration : Prop :=
  ∀ (n : Nat) (s t : State), Claims.run n s = .next t → t.cfg = s.cfg

/-- R75: an OK response carries `Q(OP)` data bytes, any other response none. -/
def Obligations.ResponsesHaveTheirLength : Prop :=
  ∀ (i : Instr) (s t : State), exec i s = .next t →
    ∃ r, t.response = some r ∧ r.data.length = if r.code = .ok then Claims.dataLength s.cfg i else 0

/-- R59: RDSTATE and RDSTATUS may be repeated and return the same bytes; INIT and LDSTATE are idempotent. -/
def Obligations.RepeatableCommandsRepeat : Prop :=
  ∀ (i : Instr) (s t : State), i.opcode = 0x21 ∨ i.opcode = 0x40 ∨ i.opcode = 0x30 ∨ i.opcode = 0x20 →
    exec i s = .next t → codeOf (exec i s) = some .ok → exec i t = .next t

/-- R178: whether a command is accepted depends on OP, ARG, the payload's length, PHASE, BS and the configuration, never on
payload bytes or lanes. -/
def Obligations.AcceptanceIgnoresTheData : Prop :=
  ∀ (i j : Instr) (s u : State), encode i = encode j → i.payload.length = j.payload.length →
    s.phase = u.phase → s.bs = u.bs → s.cfg = u.cfg →
    codeOf (exec i s) = codeOf (exec j u) ∧
    (∀ t v, exec i s = .next t → exec j u = .next v → t.phase = v.phase ∧ t.bs = v.bs)

/-- R65: in phases ABSORB and READY the only commands that return data are SQUEEZE, from the rate window, and RDSTATUS;
two states that differ at most in capacity bytes give the same response to every command. -/
def Obligations.CapacityIsNotObservable : Prop :=
  (∀ (i : Instr) (s t : State) (r : Response), s.phase = .absorb ∨ s.phase = .ready → exec i s = .next t →
    t.response = some r → r.data ≠ [] →
    i = .rdstatus 0 [] ∨ (i = .squeeze 0 [] ∧ s.phase = .ready ∧ r.data.length ≤ s.cfg.byteRate)) ∧
  (∀ (i : Instr) (s u t v : State), s.phase = .absorb ∨ s.phase = .ready →
    u = { s with lanes := u.lanes } → (∀ k : Fin 200, k.val < s.cfg.byteRate → byteAt u.lanes k = byteAt s.lanes k) →
    exec i s = .next t → exec i u = .next v → t.response = v.response)

/-- R35: no observable depends on what the lanes hold while they have no value. Two states that differ at most there stay
so through every run, stop together, and give the same responses. -/
def Obligations.ValuelessLanesAreNeverObserved : Prop :=
  ∀ (n : Nat) (s u : State), SameButValueless s u →
    (∃ t v, Claims.run n s = .next t ∧ Claims.run n u = .next v ∧ SameButValueless t v) ∨
    (∃ r, Claims.run n s = .fault r ∧ Claims.run n u = .fault r) ∨
    (∃ r, Claims.run n s = .refused r ∧ Claims.run n u = .refused r)
end

