-- ==== Sys2Proof/Laws/Buffer.lean ====
section
/-! SUPPORT. The buffer laws: a byte read after a byte write, after an XOR, after a conversion; lanes are equal when all
their bytes are; the buffer written out is canonical memory. -/

namespace Sys2Proof.Machine

open Sys2Proof

/-- Bit `b` of byte `k` is bit `8 * (k mod 8) + b` of its lane. -/
theorem byteAt_getLsbD (A : Lanes) (k : Fin 200) (b : Nat) :
    (byteAt A k).getLsbD b = (decide (b < 8) && (A[k.val / 8]'(by omega)).getLsbD (8 * (k.val % 8) + b)) := by
  simp [byteAt, BitVec.getLsbD_extractLsb']

/-- A byte read after a byte write: the byte written there, every other byte as before. -/
theorem byteAt_setByte (A : Lanes) (k j : Fin 200) (b : Byte) :
    byteAt (setByte A k b) j = if j = k then b else byteAt A j := by
  apply BitVec.eq_of_getLsbD_eq
  intro n hn
  rw [byteAt_getLsbD]
  by_cases hl : j.val / 8 = k.val / 8
  · have hm : (decide (8 * (j.val % 8) + n < 64)) = true := by simp; omega
    simp only [setByte, hl, Vector.getElem_set_self, hn, decide_true, Bool.true_and]
    simp only [BitVec.getLsbD_or, BitVec.getLsbD_and, BitVec.getLsbD_not, BitVec.getLsbD_shiftLeft,
      BitVec.getLsbD_setWidth, hm, Bool.true_and]
    by_cases hj : j = k
    · subst hj
      have h2 : ¬ (8 * (j.val % 8) + n < 8 * (j.val % 8)) := by omega
      have h3 : 8 * (j.val % 8) + n - 8 * (j.val % 8) = n := by omega
      have h4 : (255#64).getLsbD n = true := by
        have : ∀ n < 8, (255#64).getLsbD n = true := by decide
        exact this n hn
      simp [h3, h4]
      omega
    · have hne : j.val % 8 ≠ k.val % 8 := by
        intro h; apply hj; apply Fin.ext; omega
      rw [if_neg hj, byteAt_getLsbD]
      simp only [hl, hn, decide_true, Bool.true_and]
      by_cases hlt : j.val % 8 < k.val % 8
      · have h2 : 8 * (j.val % 8) + n < 8 * (k.val % 8) := by omega
        simp [h2]
      · have h2 : ¬ 8 * (j.val % 8) + n < 8 * (k.val % 8) := by omega
        have h5 : 8 ≤ 8 * (j.val % 8) + n - 8 * (k.val % 8) := by omega
        have h4 : (255#64).getLsbD (8 * (j.val % 8) + n - 8 * (k.val % 8)) = false := by
          have : ∀ m < 64, 8 ≤ m → (255#64).getLsbD m = false := by decide
          exact this _ (by omega) h5
        have h6 : b.getLsbD (8 * (j.val % 8) + n - 8 * (k.val % 8)) = false := BitVec.getLsbD_of_ge _ _ h5
        simp [h4, h6]
  · have hj : j ≠ k := by rintro rfl; exact hl rfl
    rw [if_neg hj, byteAt_getLsbD]
    simp only [setByte]
    rw [Vector.getElem_set_ne _ _ (by omega)]

/-- A byte read after a byte XOR. -/
theorem byteAt_xorByte (A : Lanes) (k j : Fin 200) (b : Byte) :
    byteAt (xorByte A k b) j = if j = k then byteAt A j ^^^ b else byteAt A j := by
  rw [xorByte, byteAt_setByte]
  split
  · rename_i h; rw [h]
  · rfl

/-- `xorAt` answers exactly inside the buffer. -/
theorem xorAt_eq (A : Lanes) {k : Nat} (b : Byte) (h : k < 200) : xorAt A k b = some (xorByte A ⟨k, h⟩ b) := by
  simp [xorAt, h]

theorem xorAt_none (A : Lanes) {k : Nat} (b : Byte) (h : 200 ≤ k) : xorAt A k b = none := by
  simp [xorAt]; omega

/-- A byte list XORed inside the buffer: every byte reads as before XOR the list's byte there, if it has one. -/
theorem xorFrom_spec (block : List Byte) (A : Lanes) (k : Nat) (h : k + block.length ≤ 200) :
    ∃ A', xorFrom A k block = some A' ∧
      ∀ j : Fin 200, byteAt A' j = if k ≤ j.val then byteAt A j ^^^ block.getD (j.val - k) 0 else byteAt A j := by
  induction block generalizing A k with
  | nil => exact ⟨A, rfl, fun j => by simp⟩
  | cons b rest ih =>
    simp only [List.length_cons] at h
    obtain ⟨A', hA', hb⟩ := ih (xorByte A ⟨k, by omega⟩ b) (k + 1) (by omega)
    refine ⟨A', by simp [xorFrom, xorAt_eq A b (show k < 200 by omega), hA'], fun j => ?_⟩
    rw [hb j, byteAt_xorByte]
    rcases Nat.lt_trichotomy j.val k with hlt | heq | hgt
    · have h1 : ¬ k + 1 ≤ j.val := by omega
      have h2 : ¬ k ≤ j.val := by omega
      have h3 : j ≠ ⟨k, by omega⟩ := by intro e; rw [e] at hlt; simp at hlt
      simp [h1, h2, h3]
    · have h1 : ¬ k + 1 ≤ j.val := by omega
      have h3 : j = ⟨k, by omega⟩ := Fin.ext heq
      simp [h3]
    · have h1 : k + 1 ≤ j.val := by omega
      have h2 : k ≤ j.val := by omega
      have h3 : j ≠ ⟨k, by omega⟩ := by intro e; rw [e] at hgt; simp at hgt
      have h4 : j.val - k = (j.val - (k + 1)) + 1 := by omega
      simp [h1, h2, h3, h4]

/-- The padding of FINAL stays inside the buffer when BS and BYTE_RATE do, and XORs the two bytes. -/
theorem padLanes_spec (c : Config) (bs : Nat) (A : Lanes) (hb : bs < 200) :
    ∃ A', padLanes c bs A = some A' ∧
      ∀ j : Fin 200, byteAt A' j =
        byteAt A j ^^^ ((if j.val = bs then c.suffix else 0) ^^^ (if j.val = c.byteRate - 1 then 0x80 else 0)) := by
  have hr : c.byteRate - 1 < 200 := by
    have := c.rate.isLt; unfold Config.byteRate; omega
  refine ⟨_, by rw [padLanes, xorAt_eq A _ hb]; exact xorAt_eq _ _ hr, fun j => ?_⟩
  rw [byteAt_xorByte, byteAt_xorByte]
  simp only [Fin.ext_iff]
  split <;> split <;> simp [BitVec.xor_assoc]

/-- `bytes_to_lanes` puts each byte where the byte view reads it. -/
theorem byteAt_bytesToLanes (B : Vector Byte 200) (k : Fin 200) : byteAt (bytesToLanes B) k = B[k.val] := by
  apply BitVec.eq_of_getLsbD_eq
  intro n hn
  rw [byteAt_getLsbD]
  have h8 : k.val % 8 < 8 := Nat.mod_lt _ (by decide)
  have hk : k.val = 8 * (k.val / 8) + k.val % 8 := by omega
  have key : ∀ r, r < 8 → ∀ h : 8 * (k.val / 8) + r < 200,
      ((bytesToLanes B)[k.val / 8]'(by omega)).getLsbD (8 * r + n) = (B[8 * (k.val / 8) + r]).getLsbD n := by
    intro r hr h
    have out : ∀ (x : Byte) m, 8 ≤ m → x.getLsbD m = false := fun x m hm => BitVec.getLsbD_of_ge x m hm
    have shifted : ∀ (x : Byte) q, q < 8 →
        (x.setWidth 64 <<< (8 * q)).getLsbD (8 * r + n) = (decide (q = r) && x.getLsbD n) := by
      intro x q hq
      rw [BitVec.getLsbD_shiftLeft, BitVec.getLsbD_setWidth]
      rcases Nat.lt_trichotomy q r with hlt | rfl | hgt
      · rw [out x _ (by omega)]; simp; omega
      · have e : 8 * q + n - 8 * q = n := by omega
        have h64 : 8 * q + n < 64 := by omega
        have h64' : n < 64 := by omega
        simp [e, h64, h64']
      · have hl : 8 * r + n < 8 * q := by omega
        have hne : q ≠ r := by omega
        simp [hl, hne]
    simp only [bytesToLanes, Vector.getElem_ofFn, BitVec.getLsbD_or]
    have s0 := shifted (B[8 * (k.val / 8)]) 0 (by decide)
    have s1 := shifted (B[8 * (k.val / 8) + 1]) 1 (by decide)
    have s2 := shifted (B[8 * (k.val / 8) + 2]) 2 (by decide)
    have s3 := shifted (B[8 * (k.val / 8) + 3]) 3 (by decide)
    have s4 := shifted (B[8 * (k.val / 8) + 4]) 4 (by decide)
    have s5 := shifted (B[8 * (k.val / 8) + 5]) 5 (by decide)
    have s6 := shifted (B[8 * (k.val / 8) + 6]) 6 (by decide)
    have s7 := shifted (B[8 * (k.val / 8) + 7]) 7 (by decide)
    simp only [Nat.mul_zero, BitVec.shiftLeft_zero, Nat.reduceMul] at s0 s1 s2 s3 s4 s5 s6 s7
    rw [s0, s1, s2, s3, s4, s5, s6, s7]
    interval_cases r <;> simp
  simpa [hn, ← hk] using key (k.val % 8) h8 (by omega)

/-- Two sets of lanes with the same bytes are the same. -/
theorem lanes_ext {A B : Lanes} (h : ∀ k : Fin 200, byteAt A k = byteAt B k) : A = B := by
  apply Vector.ext
  intro i hi
  apply BitVec.eq_of_getLsbD_eq
  intro n hn
  have := congrArg (fun b : Byte => b.getLsbD (n % 8)) (h ⟨8 * i + n / 8, by omega⟩)
  simp only [byteAt_getLsbD] at this
  have e1 : (8 * i + n / 8) / 8 = i := by omega
  have e2 : 8 * ((8 * i + n / 8) % 8) + n % 8 = n := by omega
  have e3 : n % 8 < 8 := Nat.mod_lt _ (by decide)
  simp only [e1, e2, e3, decide_true, Bool.true_and] at this
  exact this

@[simp] theorem lanesToBytes_length (A : Lanes) : (lanesToBytes A).length = 200 := by simp [lanesToBytes]

/-- Byte `k` of the 200 bytes is `S[k]`. -/
@[simp] theorem lanesToBytes_getElem (A : Lanes) (k : Nat) (h : k < (lanesToBytes A).length) :
    (lanesToBytes A)[k] = byteAt A ⟨k, by simpa using h⟩ := by
  simp [lanesToBytes]

/-- A block read inside the buffer has its length. -/
theorem memRead_length (A : Lanes) {k n : Nat} (h : k + n ≤ 200) : (memRead A k n).length = n := by
  simp [memRead]; omega

/-- The buffer written out is in canonical form, whatever the lanes hold: so every operation on the lanes keeps it. -/
theorem bufferCells_wf (A : Lanes) : Memory.wf (bufferCells A) := by
  have hmem : ∀ c ∈ bufferCells A, ∃ k : Fin 200, byteAt A k ≠ 0 ∧ c = (k.val, byteAt A k) := by
    intro c hc
    simp only [bufferCells, List.mem_filterMap] at hc
    obtain ⟨k, _, hk⟩ := hc
    split at hk
    · cases hk
    · rename_i hne; exact ⟨k, hne, by simpa using hk.symm⟩
  refine ⟨?_, fun c hc => ?_⟩
  · have hsub : ((bufferCells A).map Prod.fst).Sublist ((List.finRange 200).map Fin.val) := by
      have : ∀ l : List (Fin 200),
          ((l.filterMap fun k => if byteAt A k = 0 then none else some (k.val, byteAt A k)).map Prod.fst).Sublist
            (l.map Fin.val) := by
        intro l
        induction l with
        | nil => simp
        | cons k rest ih =>
          by_cases hk : byteAt A k = 0
          · simp only [List.filterMap_cons, hk, if_true, List.map_cons]; exact ih.cons k.val
          · simp only [List.filterMap_cons, hk, if_false, List.map_cons]; exact ih.cons_cons k.val
      exact this _
    have hp : ((List.finRange 200).map Fin.val).Pairwise (· < ·) := by
      simp only [List.map_coe_finRange_eq_range]; exact List.pairwise_lt_range
    exact hp.sublist hsub
  · obtain ⟨k, hk, rfl⟩ := hmem c hc
    exact ⟨k.isLt, hk⟩

/-- The memory of the machine after reset is in canonical form. -/
theorem reset_memory_wf : Memory.wf (bufferCells State.reset.lanes) := bufferCells_wf _

/-- The written-out buffer reads as the byte view reads, and nothing outside it. -/
theorem read_bufferCells (A : Lanes) (k : Fin 200) : Memory.read (bufferCells A) k.val = some (byteAt A k) := by
  have : ∀ l : List (Fin 200), l.Nodup →
      ((l.filterMap fun j => if byteAt A j = 0 then none else some (j.val, byteAt A j)).lookup k.val).getD 0 =
        if k ∈ l then byteAt A k else 0 := by
    intro l hl
    induction l with
    | nil => simp
    | cons j rest ih =>
      have hr := ih (List.nodup_cons.mp hl).2
      have hn := (List.nodup_cons.mp hl).1
      by_cases hjk : k = j
      · subst hjk
        by_cases hz : byteAt A k = 0
        · simp only [List.filterMap_cons, hz, if_true]; rw [hr]; simp [hz]
        · simp only [List.filterMap_cons, hz, if_false, List.lookup_cons, beq_self_eq_true]; simp
      · have hv : (k.val == j.val) = false := by simp [Fin.val_inj, hjk]
        by_cases hz : byteAt A j = 0
        · simp only [List.filterMap_cons, hz, if_true]; rw [hr]; simp [hjk]
        · simp only [List.filterMap_cons, hz, if_false, List.lookup_cons, hv]; rw [hr]; simp [hjk]
  have hm := this (List.finRange 200) (List.nodup_finRange 200)
  simp only [Memory.read, k.isLt, if_true, bufferCells]
  rw [hm]; simp

end Sys2Proof.Machine
end

