-- ==== Sys2Proof/Laws/Engine.lean ====
section
/-! SUPPORT. The engine, lane by lane: one lemma per step of a round, and what a carry walk and a pass of lane writes do
to each lane. -/

namespace Sys2Proof.Machine

open Sys2Proof

/-- Theta, lane by lane. -/
theorem theta_getElem (A : Lanes) (i : Nat) (h : i < 25) :
    (theta A)[i] = A[i] ^^^ (columnEffect (columnParity A))[i % 5]'(Nat.mod_lt _ (by decide)) := by
  simp [theta]

/-- Chi, lane by lane. -/
theorem chi_getElem (A : Lanes) (i : Nat) (h : i < 25) :
    (chi A)[i] = A[i] ^^^
      (~~~(A[5 * (i / 5) + (i % 5 + 1) % 5]'(by omega)) &&& A[5 * (i / 5) + (i % 5 + 2) % 5]'(by omega)) := by
  simp [chi]

/-- The round constant of round `r` stands in line `r mod 8`, column `r div 8` of the table of R27. -/
theorem RC_getElem (r : Nat) (h : r < 24) :
    RC[r] = (rcLines[r % 8]'(Nat.mod_lt _ (by decide)))[r / 8]'(by omega) := by
  simp [RC]

/-- Iota, lane by lane. -/
theorem iota_getElem (r : Fin 24) (A : Lanes) (i : Nat) (h : i < 25) :
    (iota r A)[i] = if i = 0 then A[0] ^^^ RC[r.val] else A[i] := by
  by_cases h0 : i = 0
  · subst h0; simp [iota]
  · rw [if_neg h0]; simp only [iota]; rw [Vector.getElem_set_ne _ _ (by omega)]

/-- A carry walk leaves every lane that is no target of it. -/
theorem carryWalk_of_not_target (steps : List (Fin 25 × Fin 64)) (A : Lanes) (carry : Lane) (j : Nat) (hj : j < 25)
    (h : ∀ p ∈ steps, p.1.val ≠ j) : (carryWalk steps A carry)[j] = A[j] := by
  induction steps generalizing A carry with
  | nil => rfl
  | cons p rest ih =>
    rw [carryWalk, ih _ _ (fun q hq => h q (List.mem_cons_of_mem _ hq)),
      Vector.getElem_set_ne _ _ (h p List.mem_cons_self)]

/-- A carry walk over distinct targets puts into the target of step `t` the rotated original content of the target of the
step before, or the rotated carry for step 0. -/
theorem carryWalk_target (steps : List (Fin 25 × Fin 64)) (A : Lanes) (carry : Lane)
    (hd : (steps.map Prod.fst).Nodup) (t : Nat) (ht : t < steps.length) :
    (carryWalk steps A carry)[steps[t].1.val] =
      rotl64 (if _h0 : t = 0 then carry else A[steps[t - 1].1.val]) steps[t].2.val := by
  induction steps generalizing A carry t with
  | nil => simp at ht
  | cons p rest ih =>
    obtain ⟨target, amount⟩ := p
    simp only [List.map_cons, List.nodup_cons, List.mem_map, not_exists, not_and] at hd
    have hne : ∀ q ∈ rest, q.1.val ≠ target.val := fun q hq he => hd.1 q hq (Fin.ext he)
    cases t with
    | zero =>
      simp only [List.getElem_cons_zero, dite_true, carryWalk]
      rw [carryWalk_of_not_target rest _ _ _ _ hne, Vector.getElem_set_self]
    | succ t =>
      simp only [List.length_cons, Nat.add_lt_add_iff_right] at ht
      simp only [List.getElem_cons_succ, carryWalk, Nat.succ_ne_zero, dite_false, Nat.add_sub_cancel]
      rw [ih _ _ hd.2 t ht]
      congr 1
      cases t with
      | zero => simp
      | succ t =>
        simp only [Nat.succ_ne_zero, dite_false, Nat.add_sub_cancel, List.getElem_cons_succ]
        rw [Vector.getElem_set_ne]
        exact fun he => hne _ (List.getElem_mem _) he.symm

/-- A pass of writes `B[d i] <- v i` leaves every lane it does not write. -/
theorem foldl_set_of_not_target (l : List (Fin 25)) (d : Fin 25 → Fin 25) (v : Fin 25 → Lane) (B : Lanes) (j : Nat)
    (hj : j < 25) (h : ∀ i ∈ l, (d i).val ≠ j) : (l.foldl (fun B i => B.set (d i).val (v i)) B)[j] = B[j] := by
  induction l generalizing B with
  | nil => rfl
  | cons i rest ih =>
    rw [List.foldl_cons, ih _ (fun q hq => h q (List.mem_cons_of_mem _ hq)),
      Vector.getElem_set_ne _ _ (h i List.mem_cons_self)]

/-- A pass of writes to distinct lanes puts `v i` into lane `d i`. -/
theorem foldl_set_target (l : List (Fin 25)) (d : Fin 25 → Fin 25) (v : Fin 25 → Lane) (B : Lanes)
    (hd : (l.map d).Nodup) (i : Fin 25) (hi : i ∈ l) :
    (l.foldl (fun B i => B.set (d i).val (v i)) B)[(d i).val] = v i := by
  induction l generalizing B with
  | nil => simp at hi
  | cons k rest ih =>
    simp only [List.map_cons, List.nodup_cons, List.mem_map, not_exists, not_and] at hd
    rw [List.foldl_cons]
    rcases List.mem_cons.mp hi with rfl | hi'
    · rw [foldl_set_of_not_target rest d v _ _ _ (fun q hq he => hd.1 q hq (Fin.ext he)), Vector.getElem_set_self]
    · exact ih _ hd.2 hi'

end Sys2Proof.Machine
end

