-- ==== Sys2Proof/Laws/State.lean ====
section
/-! SUPPORT. What each state update leaves in each field, so that no proof unfolds a record update. -/

namespace Sys2Proof.Machine

open Sys2Proof

variable (s : State) (code : RespCode) (data : List Byte) (f : Lanes → Lanes) (w : CmdWord) (p : List Byte)

@[simp] theorem State.respond_lanes : (s.respond code data).lanes = s.lanes := rfl
@[simp] theorem State.respond_bs : (s.respond code data).bs = s.bs := rfl
@[simp] theorem State.respond_phase : (s.respond code data).phase = s.phase := rfl
@[simp] theorem State.respond_cfg : (s.respond code data).cfg = s.cfg := rfl
@[simp] theorem State.respond_response : (s.respond code data).response = some ⟨code, data⟩ := rfl
@[simp] theorem State.respond_host : (s.respond code data).host = s.host := rfl
@[simp] theorem State.respond_freeCount : (s.respond code data).freeCount = s.freeCount := rfl

@[simp] theorem State.refuse_lanes : (s.refuse code).lanes = s.lanes := rfl
@[simp] theorem State.refuse_bs : (s.refuse code).bs = s.bs := rfl
@[simp] theorem State.refuse_phase : (s.refuse code).phase = s.phase := rfl
@[simp] theorem State.refuse_cfg : (s.refuse code).cfg = s.cfg := rfl
@[simp] theorem State.refuse_response : (s.refuse code).response = some ⟨code, []⟩ := rfl
@[simp] theorem State.refuse_host : (s.refuse code).host = s.host := rfl
@[simp] theorem State.refuse_freeCount : (s.refuse code).freeCount = s.freeCount := rfl

@[simp] theorem State.raiseConfigFault_lanes : s.raiseConfigFault.lanes = s.lanes := rfl
@[simp] theorem State.raiseConfigFault_bs : s.raiseConfigFault.bs = s.bs := rfl
@[simp] theorem State.raiseConfigFault_phase : s.raiseConfigFault.phase = .fault := rfl
@[simp] theorem State.raiseConfigFault_cfg : s.raiseConfigFault.cfg = s.cfg := rfl
@[simp] theorem State.raiseConfigFault_response : s.raiseConfigFault.response = some ⟨.configFault, []⟩ := rfl
@[simp] theorem State.raiseConfigFault_host : s.raiseConfigFault.host = s.host := rfl
@[simp] theorem State.raiseConfigFault_freeCount : s.raiseConfigFault.freeCount = s.freeCount := rfl

@[simp] theorem State.applyReset_lanes : s.applyReset.lanes = State.reset.lanes := rfl
@[simp] theorem State.applyReset_bs : s.applyReset.bs = 0 := rfl
@[simp] theorem State.applyReset_phase : s.applyReset.phase = .idle := rfl
@[simp] theorem State.applyReset_cfg : s.applyReset.cfg = s.cfg := rfl
@[simp] theorem State.applyReset_response : s.applyReset.response = none := rfl
@[simp] theorem State.applyReset_host : s.applyReset.host = s.host := rfl
@[simp] theorem State.applyReset_freeCount : s.applyReset.freeCount = s.freeCount := rfl

@[simp] theorem State.loseLanes_lanes : s.loseLanes.lanes = valuelessLanes s.freeCount := rfl
@[simp] theorem State.loseLanes_bs : s.loseLanes.bs = s.bs := rfl
@[simp] theorem State.loseLanes_phase : s.loseLanes.phase = s.phase := rfl
@[simp] theorem State.loseLanes_cfg : s.loseLanes.cfg = s.cfg := rfl
@[simp] theorem State.loseLanes_response : s.loseLanes.response = s.response := rfl
@[simp] theorem State.loseLanes_host : s.loseLanes.host = s.host := rfl
@[simp] theorem State.loseLanes_freeCount : s.loseLanes.freeCount = s.freeCount + 25 := rfl

@[simp] theorem State.permuteLanes_lanes : (s.permuteLanes f).lanes = f s.lanes := rfl
@[simp] theorem State.permuteLanes_bs : (s.permuteLanes f).bs = s.bs := rfl
@[simp] theorem State.permuteLanes_phase : (s.permuteLanes f).phase = s.phase := rfl
@[simp] theorem State.permuteLanes_cfg : (s.permuteLanes f).cfg = s.cfg := rfl
@[simp] theorem State.permuteLanes_response : (s.permuteLanes f).response = some ⟨.ok, []⟩ := rfl
@[simp] theorem State.permuteLanes_host : (s.permuteLanes f).host = s.host := rfl
@[simp] theorem State.permuteLanes_freeCount : (s.permuteLanes f).freeCount = s.freeCount := rfl

@[simp] theorem State.present_lanes : (s.present w p).lanes = s.lanes := rfl
@[simp] theorem State.present_bs : (s.present w p).bs = s.bs := rfl
@[simp] theorem State.present_phase : (s.present w p).phase = s.phase := rfl
@[simp] theorem State.present_cfg : (s.present w p).cfg = s.cfg := rfl
@[simp] theorem State.present_response : (s.present w p).response = s.response := rfl
@[simp] theorem State.present_host : (s.present w p).host = .command w p :: s.host := rfl
@[simp] theorem State.present_freeCount : (s.present w p).freeCount = s.freeCount := rfl

@[simp] theorem State.permuteIfFull_phase : s.permuteIfFull.phase = s.phase := by
  unfold State.permuteIfFull; split <;> rfl
@[simp] theorem State.permuteIfFull_cfg : s.permuteIfFull.cfg = s.cfg := by
  unfold State.permuteIfFull; split <;> rfl
@[simp] theorem State.permuteIfFull_response : s.permuteIfFull.response = s.response := by
  unfold State.permuteIfFull; split <;> rfl
@[simp] theorem State.permuteIfFull_host : s.permuteIfFull.host = s.host := by
  unfold State.permuteIfFull; split <;> rfl
@[simp] theorem State.permuteIfFull_freeCount : s.permuteIfFull.freeCount = s.freeCount := by
  unfold State.permuteIfFull; split <;> rfl

end Sys2Proof.Machine
end

