-- ==== Sys2Proof/Laws/Ops.lean ====
section
/-! SUPPORT. What each shared operation can do, said once: the checks before a command, the operand forms, the engine
commands, the sponge operations, and taking the host's next action. -/

namespace Sys2Proof.Machine

open Sys2Proof

variable {α : Type}

/-- Everything `accept` can do. -/
theorem accept_cases (operand : Option α) (legal : Bool) (perform : α → Result) (s : State) :
    (operand = none ∧ accept operand legal perform s = .next (s.refuse .badArg)) ∨
    (∃ a, operand = some a ∧ s.phase = .fault ∧ accept operand legal perform s = .next (s.refuse .faulted)) ∨
    (∃ a, operand = some a ∧ s.phase ≠ .fault ∧ legal = false ∧
      accept operand legal perform s = .next (s.refuse .badPhase)) ∨
    (∃ a, operand = some a ∧ s.phase ≠ .fault ∧ legal = true ∧ accept operand legal perform s = perform a) := by
  cases operand with
  | none => exact .inl ⟨rfl, rfl⟩
  | some a =>
    by_cases hf : s.phase = .fault
    · exact .inr (.inl ⟨a, rfl, hf, by simp [accept, hf]⟩)
    · cases legal
      · exact .inr (.inr (.inl ⟨a, rfl, hf, rfl, by simp [accept, hf]⟩))
      · exact .inr (.inr (.inr ⟨a, rfl, hf, rfl, by simp [accept, hf]⟩))

/-- A bad operand is refused with BAD_ARG, before anything else is looked at. -/
@[simp] theorem accept_none (legal : Bool) (perform : α → Result) (s : State) :
    accept none legal perform s = .next (s.refuse .badArg) := rfl

/-- In phase FAULT a well-formed command is refused with FAULTED. -/
theorem accept_faulted (a : α) (legal : Bool) (perform : α → Result) {s : State} (h : s.phase = .fault) :
    accept (some a) legal perform s = .next (s.refuse .faulted) := by simp [accept, h]

/-- In a phase that is not legal for it a well-formed command is refused with BAD_PHASE. -/
theorem accept_badPhase (a : α) (perform : α → Result) {s : State} (h : s.phase ≠ .fault) :
    accept (some a) false perform s = .next (s.refuse .badPhase) := by simp [accept, h]

/-- A well-formed command in a legal phase is performed. -/
theorem accept_performs (a : α) (perform : α → Result) {s : State} (h : s.phase ≠ .fault) :
    accept (some a) true perform s = perform a := by simp [accept, h]

/-- An engine command always answers a next state: a refusal, or the lanes transformed. -/
theorem rawStep_cases (operand : Option α) (f : α → Lanes → Lanes) (s : State) :
    (∃ code, code ≠ .ok ∧ rawStep operand f s = .next (s.refuse code)) ∨
    (∃ a, operand = some a ∧ s.phase = .raw ∧ rawStep operand f s = .next (s.permuteLanes (f a))) := by
  rcases accept_cases operand (s.phase == .raw) (fun a => .next (s.permuteLanes (f a))) s with
    ⟨_, h⟩ | ⟨_, _, _, h⟩ | ⟨_, _, _, _, h⟩ | ⟨a, ha, _, hl, h⟩
  · exact .inl ⟨.badArg, by decide, h⟩
  · exact .inl ⟨.faulted, by decide, h⟩
  · exact .inl ⟨.badPhase, by decide, h⟩
  · exact .inr ⟨a, ha, by simpa using hl, h⟩

/-- In phase RAW an engine command with a good operand transforms the lanes. -/
theorem rawStep_raw (a : α) (f : α → Lanes → Lanes) {s : State} (h : s.phase = .raw) :
    rawStep (some a) f s = .next (s.permuteLanes (f a)) := by
  simp [rawStep, accept, h]

/-- When a command without operand is well formed. -/
theorem noOperand_eq_some {arg : Byte} {payload : List Byte} {u : Unit} :
    noOperand arg payload = some u ↔ arg = 0 ∧ payload = [] := by
  simp [noOperand]

@[simp] theorem noOperand_zero : noOperand 0#8 [] = some () := rfl

/-- When a command without operand is ill formed. -/
theorem noOperand_eq_none {arg : Byte} {payload : List Byte} (h : ¬(arg = 0 ∧ payload = [])) :
    noOperand arg payload = none := by
  simp only [noOperand, if_neg h]

/-- When a round number is legal. -/
theorem roundOperand_eq_some {arg : Byte} {payload : List Byte} {r : Fin 24} :
    roundOperand arg payload = some r ↔ arg.toNat = r.val ∧ payload = [] := by
  unfold roundOperand
  split
  · rename_i h
    split
    · rename_i hp; simp [hp, Fin.ext_iff]
    · rename_i hp; simp [hp]
  · rename_i h
    constructor
    · intro hc; cases hc
    · rintro ⟨ha, _⟩; omega

/-- When a whole state is well formed, and which bytes it is. -/
theorem stateOperand_eq_some {arg : Byte} {payload : List Byte} {B : Vector Byte 200} :
    stateOperand arg payload = some B ↔ arg = 0 ∧ B.toList = payload := by
  unfold stateOperand
  split
  · rename_i h
    split
    · rename_i ha
      simp only [Option.some.injEq, ha, true_and]
      constructor
      · rintro rfl; simp
      · intro hB; apply Vector.toList_inj.mp; simp [hB]
    · rename_i ha
      constructor
      · intro hc; cases hc
      · rintro ⟨h0, _⟩; exact absurd h0 ha
  · rename_i h
    constructor
    · intro hc; cases hc
    · rintro ⟨_, rfl⟩; simp at h

/-- When a message block is well formed. -/
theorem blockOperand_eq_some {c : Config} {arg : Byte} {payload block : List Byte} :
    blockOperand c arg payload = some block ↔
      (1 ≤ arg.toNat ∧ arg.toNat ≤ c.byteRate ∧ payload.length = arg.toNat) ∧ payload = block := by
  simp [blockOperand]

/-- Everything the host's next action can be. -/
theorem takeAction_cases (s : State) :
    (s.host = [] ∧ s.takeAction = none) ∨
    (∃ a rest, s.host = a :: rest ∧ s.takeAction = some (a, { s with host := rest })) := by
  unfold State.takeAction
  cases h : s.host with
  | nil => exact .inl ⟨rfl, rfl⟩
  | cons a rest => exact .inr ⟨a, rest, rfl, rfl⟩

/-- Everything INIT can do once accepted. -/
theorem initialise_cases (s : State) :
    (configValid s.cfg = true ∧
      s.initialise = { s with lanes := Vector.replicate 25 0, bs := 0, phase := .absorb, response := some ⟨.ok, []⟩ }) ∨
    (configValid s.cfg = false ∧ s.initialise = s.raiseConfigFault) := by
  unfold State.initialise
  cases h : configValid s.cfg
  · exact .inr ⟨rfl, rfl⟩
  · exact .inl ⟨rfl, rfl⟩

/-- Everything FINAL can do once accepted. -/
theorem finalise_cases (s : State) :
    (s.cfg.byteRate = 0 ∧ s.finalise = .refused .inadmissibleConfig) ∨
    (s.cfg.byteRate ≠ 0 ∧ padLanes s.cfg s.bs.toNat s.lanes = none ∧ s.finalise = .fault .outsideBuffer) ∨
    (∃ A, s.cfg.byteRate ≠ 0 ∧ padLanes s.cfg s.bs.toNat s.lanes = some A ∧
      s.finalise =
        .next { s with lanes := keccakF A, bs := 0, phase := .ready, response := some ⟨.ok, []⟩ }) := by
  unfold State.finalise
  by_cases h : s.cfg.byteRate = 0
  · exact .inl ⟨h, by simp [h]⟩
  · cases hp : padLanes s.cfg s.bs.toNat s.lanes with
    | none => exact .inr (.inl ⟨h, rfl, by simp [h]⟩)
    | some A => exact .inr (.inr ⟨A, h, rfl, by simp [h]; rfl⟩)

/-- Everything SQUEEZE can do once accepted. -/
theorem squeezeDigest_cases (s : State) :
    (outlenAdmissible s.cfg = false ∧ s.squeezeDigest = .refused .inadmissibleConfig) ∨
    (outlenAdmissible s.cfg = true ∧
      s.squeezeDigest =
        .next { s.loseLanes with
          bs := 0, phase := .idle, response := some ⟨.ok, memRead s.lanes 0 s.cfg.outlen.toNat⟩ }) := by
  unfold State.squeezeDigest
  cases h : outlenAdmissible s.cfg
  · exact .inl ⟨rfl, rfl⟩
  · exact .inr ⟨rfl, rfl⟩

end Sys2Proof.Machine
end

