-- ==== Sys2Proof/Laws/Exec.lean ====
section
/-! SUPPORT. What executing a command can do, said once: it is refused, or it is well formed and performed as its own rule
says. -/

namespace Sys2Proof.Machine

open Sys2Proof

/-- What it is for a command to be performed in a state: the phase its rule asks for, and the answer of the operation. -/
def Performed (i : Instr) (s : State) : Prop :=
  match i with
  | .theta _ _ => s.phase = .raw ∧ exec i s = .next (s.permuteLanes theta)
  | .rhopi _ _ => s.phase = .raw ∧ exec i s = .next (s.permuteLanes rhoPi)
  | .chi _ _ => s.phase = .raw ∧ exec i s = .next (s.permuteLanes chi)
  | .iota a _ => ∃ r : Fin 24, r.val = a.toNat ∧ s.phase = .raw ∧ exec i s = .next (s.permuteLanes (iota r))
  | .round a _ =>
    ∃ r : Fin 24, r.val = a.toNat ∧ s.phase = .raw ∧ exec i s = .next (s.permuteLanes fun A => keccakRound A r)
  | .permute _ _ => s.phase = .raw ∧ exec i s = .next (s.permuteLanes keccakF)
  | .ldstate _ p =>
    ∃ B : Vector Byte 200, B.toList = p ∧ s.phase ≠ .fault ∧
      exec i s = .next ({ s with lanes := bytesToLanes B, bs := 0, phase := .raw }.respond .ok [])
  | .rdstate _ _ => s.phase = .raw ∧ exec i s = .next (s.respond .ok (lanesToBytes s.lanes))
  | .init _ _ => s.phase ≠ .fault ∧ exec i s = .next s.initialise
  | .absorb _ p => s.phase = .absorb ∧ s.bs = 0 ∧ exec i s = s.absorbBlock p
  | .final _ _ => s.phase = .absorb ∧ exec i s = s.finalise
  | .squeeze _ _ => s.phase = .ready ∧ exec i s = s.squeezeDigest
  | .rdstatus _ _ => exec i s = .next (s.respond .ok (statusBytes s))

/-- Everything the checks before a command can do, with the refusal codes. -/
theorem accept_refuses_or_performs {α : Type} (operand : Option α) (legal : Bool) (perform : α → Result) (s : State) :
    (∃ code, (code = .badArg ∨ code = .faulted ∨ code = .badPhase) ∧
      accept operand legal perform s = .next (s.refuse code)) ∨
    (∃ a, operand = some a ∧ s.phase ≠ .fault ∧ legal = true ∧ accept operand legal perform s = perform a) := by
  rcases accept_cases operand legal perform s with ⟨_, h⟩ | ⟨_, _, _, h⟩ | ⟨_, _, _, _, h⟩ | h
  · exact .inl ⟨_, .inl rfl, h⟩
  · exact .inl ⟨_, .inr (.inl rfl), h⟩
  · exact .inl ⟨_, .inr (.inr rfl), h⟩
  · exact .inr h

/-- Executing a command: a refusal that changes nothing but the response, or a well-formed command performed. -/
theorem exec_cases (i : Instr) (s : State) :
    (∃ code, (code = .badArg ∨ code = .faulted ∨ code = .badPhase) ∧ exec i s = .next (s.refuse code)) ∨
    (i.wellFormed s.cfg = true ∧ Performed i s) := by
  cases i with
  | theta a p =>
    rcases accept_refuses_or_performs (noOperand a p) (s.phase == .raw) (fun _ => .next (s.permuteLanes theta)) s with
      h | ⟨_, ho, _, hl, h⟩
    · exact .inl h
    · obtain ⟨rfl, rfl⟩ := noOperand_eq_some.mp ho
      exact .inr ⟨rfl, by simpa using hl, h⟩
  | rhopi a p =>
    rcases accept_refuses_or_performs (noOperand a p) (s.phase == .raw) (fun _ => .next (s.permuteLanes rhoPi)) s with
      h | ⟨_, ho, _, hl, h⟩
    · exact .inl h
    · obtain ⟨rfl, rfl⟩ := noOperand_eq_some.mp ho
      exact .inr ⟨rfl, by simpa using hl, h⟩
  | chi a p =>
    rcases accept_refuses_or_performs (noOperand a p) (s.phase == .raw) (fun _ => .next (s.permuteLanes chi)) s with
      h | ⟨_, ho, _, hl, h⟩
    · exact .inl h
    · obtain ⟨rfl, rfl⟩ := noOperand_eq_some.mp ho
      exact .inr ⟨rfl, by simpa using hl, h⟩
  | iota a p =>
    rcases accept_refuses_or_performs (roundOperand a p) (s.phase == .raw) (fun r => .next (s.permuteLanes (iota r))) s
      with h | ⟨r, ho, _, hl, h⟩
    · exact .inl h
    · obtain ⟨hr, rfl⟩ := roundOperand_eq_some.mp ho
      exact .inr ⟨by simp [Instr.wellFormed, Instr.argLegal, Instr.requiredPayload, Instr.payload]; omega,
        r, hr.symm, by simpa using hl, h⟩
  | round a p =>
    rcases accept_refuses_or_performs (roundOperand a p) (s.phase == .raw)
      (fun r => .next (s.permuteLanes fun A => keccakRound A r)) s with h | ⟨r, ho, _, hl, h⟩
    · exact .inl h
    · obtain ⟨hr, rfl⟩ := roundOperand_eq_some.mp ho
      exact .inr ⟨by simp [Instr.wellFormed, Instr.argLegal, Instr.requiredPayload, Instr.payload]; omega,
        r, hr.symm, by simpa using hl, h⟩
  | permute a p =>
    rcases accept_refuses_or_performs (noOperand a p) (s.phase == .raw) (fun _ => .next (s.permuteLanes keccakF)) s with
      h | ⟨_, ho, _, hl, h⟩
    · exact .inl h
    · obtain ⟨rfl, rfl⟩ := noOperand_eq_some.mp ho
      exact .inr ⟨rfl, by simpa using hl, h⟩
  | ldstate a p =>
    rcases accept_refuses_or_performs (stateOperand a p) true
      (fun B => .next ({ s with lanes := bytesToLanes B, bs := 0, phase := .raw }.respond .ok [])) s with
      h | ⟨B, ho, hf, _, h⟩
    · exact .inl h
    · obtain ⟨rfl, hB⟩ := stateOperand_eq_some.mp ho
      subst hB
      exact .inr ⟨by simp [Instr.wellFormed, Instr.argLegal, Instr.requiredPayload, Instr.payload], B, rfl, hf, h⟩
  | rdstate a p =>
    rcases accept_refuses_or_performs (noOperand a p) (s.phase == .raw)
      (fun _ => .next (s.respond .ok (lanesToBytes s.lanes))) s with h | ⟨_, ho, _, hl, h⟩
    · exact .inl h
    · obtain ⟨rfl, rfl⟩ := noOperand_eq_some.mp ho
      exact .inr ⟨rfl, by simpa using hl, h⟩
  | init a p =>
    rcases accept_refuses_or_performs (noOperand a p) true (fun _ => .next s.initialise) s with h | ⟨_, ho, hf, _, h⟩
    · exact .inl h
    · obtain ⟨rfl, rfl⟩ := noOperand_eq_some.mp ho
      exact .inr ⟨rfl, hf, h⟩
  | absorb a p =>
    rcases accept_refuses_or_performs (blockOperand s.cfg a p) (s.phase == .absorb && s.bs == 0) s.absorbBlock s with
      h | ⟨b, ho, _, hl, h⟩
    · exact .inl h
    · obtain ⟨⟨h1, h2, h3⟩, rfl⟩ := blockOperand_eq_some.mp ho
      have hl' : s.phase = .absorb ∧ s.bs = 0 := by simpa using hl
      exact .inr ⟨by simp [Instr.wellFormed, Instr.argLegal, Instr.requiredPayload, Instr.payload, h1, h2, h3],
        hl'.1, hl'.2, h⟩
  | final a p =>
    rcases accept_refuses_or_performs (noOperand a p) (s.phase == .absorb) (fun _ => s.finalise) s with
      h | ⟨_, ho, _, hl, h⟩
    · exact .inl h
    · obtain ⟨rfl, rfl⟩ := noOperand_eq_some.mp ho
      exact .inr ⟨rfl, by simpa using hl, h⟩
  | squeeze a p =>
    rcases accept_refuses_or_performs (noOperand a p) (s.phase == .ready) (fun _ => s.squeezeDigest) s with
      h | ⟨_, ho, _, hl, h⟩
    · exact .inl h
    · obtain ⟨rfl, rfl⟩ := noOperand_eq_some.mp ho
      exact .inr ⟨rfl, by simpa using hl, h⟩
  | rdstatus a p =>
    cases ho : noOperand a p with
    | none => exact .inl ⟨_, .inl rfl, by simp [exec, execRdstatus, ho]⟩
    | some u =>
      obtain ⟨rfl, rfl⟩ := noOperand_eq_some.mp ho
      exact .inr ⟨rfl, rfl⟩

/-- Everything ABSORB of a well-formed block can do once accepted: it always answers a next state. -/
theorem absorbBlock_spec (s : State) (block : List Byte) (h : block.length ≤ 200) :
    ∃ A, xorFrom s.lanes 0 block = some A ∧
      (∀ j : Fin 200, byteAt A j = byteAt s.lanes j ^^^ block.getD j.val 0) ∧
      s.absorbBlock block =
        .next ({ s with lanes := A, bs := BitVec.ofNat 8 block.length }.permuteIfFull.respond .ok []) := by
  obtain ⟨A, hA, hb⟩ := xorFrom_spec block s.lanes 0 (by omega)
  exact ⟨A, hA, fun j => by simpa using hb j, by simp [State.absorbBlock, hA]⟩

end Sys2Proof.Machine
end

