-- ==== Sys2Proof/Laws/PerInstr.lean ====
section
/-! SUPPORT. Statements about every command as syntax, one lemma per constructor: what is sent for a command decodes to
it. -/

namespace Sys2Proof.Laws

/-- The bytes of a command decode to that command (R70 to R73). -/
def RoundTrip.Statement (i : Instr) : Prop := decodeBytes (encodeBytes i) = .ok i

/-- A bit of a word made of two bytes. -/
theorem getLsbD_word (op arg : Byte) (i : Nat) :
    BitVec.getLsbD (w := 16) (op ++ arg) i = if i < 8 then arg.getLsbD i else op.getLsbD (i - 8) := by
  have h := BitVec.getLsbD_append (x := op) (y := arg) (i := i)
  split <;> simp_all

/-- The field OP of a word made of two bytes is the first (R70). -/
theorem opField_append (op arg : Byte) : opField (op ++ arg) = op := by
  apply BitVec.eq_of_getLsbD_eq
  intro n hn
  rw [opField, BitVec.getLsbD_extractLsb', getLsbD_word]
  simp [hn]

/-- The field ARG of a word made of two bytes is the second (R70). -/
theorem argField_append (op arg : Byte) : argField (op ++ arg) = arg := by
  apply BitVec.eq_of_getLsbD_eq
  intro n hn
  rw [argField, BitVec.getLsbD_extractLsb', getLsbD_word]
  simp [hn]

/-- A transaction whose opcode is in the map decodes to the command the map gives. -/
theorem RoundTrip.of_lookup {i : Instr} {command : Byte → List Byte → Instr}
    (hl : opcodeMap.lookup i.opcode = some command) (hc : command i.arg i.payload = i) : RoundTrip.Statement i := by
  simp [RoundTrip.Statement, encodeBytes, decodeBytes, decode, opField_append, argField_append, hl, hc]

variable (a : Byte) (p : List Byte)

theorem RoundTrip.theta : RoundTrip.Statement (.theta a p) := RoundTrip.of_lookup (command := .theta) rfl rfl
theorem RoundTrip.rhopi : RoundTrip.Statement (.rhopi a p) := RoundTrip.of_lookup (command := .rhopi) rfl rfl
theorem RoundTrip.chi : RoundTrip.Statement (.chi a p) := RoundTrip.of_lookup (command := .chi) rfl rfl
theorem RoundTrip.iota : RoundTrip.Statement (.iota a p) := RoundTrip.of_lookup (command := .iota) rfl rfl
theorem RoundTrip.round : RoundTrip.Statement (.round a p) := RoundTrip.of_lookup (command := .round) rfl rfl
theorem RoundTrip.permute : RoundTrip.Statement (.permute a p) := RoundTrip.of_lookup (command := .permute) rfl rfl
theorem RoundTrip.ldstate : RoundTrip.Statement (.ldstate a p) := RoundTrip.of_lookup (command := .ldstate) rfl rfl
theorem RoundTrip.rdstate : RoundTrip.Statement (.rdstate a p) := RoundTrip.of_lookup (command := .rdstate) rfl rfl
theorem RoundTrip.init : RoundTrip.Statement (.init a p) := RoundTrip.of_lookup (command := .init) rfl rfl
theorem RoundTrip.absorb : RoundTrip.Statement (.absorb a p) := RoundTrip.of_lookup (command := .absorb) rfl rfl
theorem RoundTrip.final : RoundTrip.Statement (.final a p) := RoundTrip.of_lookup (command := .final) rfl rfl
theorem RoundTrip.squeeze : RoundTrip.Statement (.squeeze a p) := RoundTrip.of_lookup (command := .squeeze) rfl rfl
theorem RoundTrip.rdstatus : RoundTrip.Statement (.rdstatus a p) := RoundTrip.of_lookup (command := .rdstatus) rfl rfl

end Sys2Proof.Laws
end

