-- ==== Sys2Proof/Laws/Step.lean ====
section
/-! SUPPORT. What one step of the machine can do, said once, and when the response part of the invariant holds. -/

namespace Sys2Proof.Machine

open Sys2Proof

/-- Everything a step can do: nothing, a reset, an illegal word refused, or the decoded command executed. -/
theorem step_cases (s : State) :
    (s.host = [] ∧ step s = .next s) ∨
    (∃ rest, s.host = .reset :: rest ∧ step s = .next { s with host := rest }.applyReset) ∨
    (∃ w p rest e, s.host = .command w p :: rest ∧ decode w p = .error e ∧
      step s = .next ({ s with host := rest }.refuse .illegalCmd)) ∨
    (∃ w p rest i, s.host = .command w p :: rest ∧ decode w p = .ok i ∧ step s = exec i { s with host := rest }) := by
  rcases takeAction_cases s with ⟨h, ht⟩ | ⟨a, rest, h, ht⟩
  · exact .inl ⟨h, by simp [step, ht]⟩
  · cases a with
    | reset => exact .inr (.inl ⟨rest, h, by simp [step, ht]⟩)
    | command w p =>
      cases hd : decode w p with
      | error e => exact .inr (.inr (.inl ⟨w, p, rest, e, h, hd, by simp [step, ht, hd]⟩))
      | ok i => exact .inr (.inr (.inr ⟨w, p, rest, i, h, hd, by simp [step, ht, hd]⟩))

/-- A response that is OK, or carries no data, meets the invariant. -/
theorem responseInv_of_response {s : State} {code : RespCode} {data : List Byte}
    (h : s.response = some ⟨code, data⟩) (hd : code = .ok ∨ data = []) : responseInv s = true := by
  unfold responseInv
  rw [h]
  cases code <;> rcases hd with h | h <;> simp_all

/-- The rate window fits the buffer: RATE is at most 1600 (R30). -/
theorem byteRate_le_200 (c : Config) : c.byteRate ≤ 200 := by
  have := c.rate.isLt
  unfold Config.byteRate
  omega

end Sys2Proof.Machine
end

