-- ==== Sys2Proof/Tests/Slice0.lean ====
section
/-! SUPPORT. Tests of the model. Expected values are from spec/95_test_vectors.md, from the worked examples of the rules, or
worked out by hand from the encoding of rules R70 and R72; each theorem names its source. At the end, for every
statement that has hypotheses, a concrete witness that meets them. -/

namespace Sys2Proof.Tests

open Sys2Proof Sys2Proof.Machine

/-! ### Helpers -/

/-- The state a result goes on with. -/
def nextOf (r : Result) : Option State :=
  match r with
  | .next t => some t
  | _ => none

/-- The instruction a decoder answer holds. -/
def okOf (r : Except DecodeError Instr) : Option Instr :=
  match r with
  | .ok i => some i
  | .error _ => none

def zeros : Lanes := Vector.replicate 25 0

/-- The lanes `A[i] = i` (IDX of 95_test_vectors.md). -/
def idx : Lanes := Vector.ofFn fun i : Fin 25 => BitVec.ofNat 64 i.val

/-- An instance of R6 in a given phase. -/
def inPhase (p : Phase) : State := { State.reset with phase := p }

def withLanes (p : Phase) (A : Lanes) : State := { State.reset with phase := p, lanes := A }

/-- Phase ABSORB after a block of `n` bytes. -/
def absorbed (n : BitVec 8) : State := { State.reset with phase := .absorb, bs := n }

/-- An instance with another configuration. -/
def instanceOf (c : Config) (p : Phase) : State := { State.reset with cfg := c, phase := p }

/-- The configuration of program P7: the invariant of R7 is violated. -/
def badConfig : Config := ⟨1088, 511, 0x01, 32⟩

def hosting (s : State) (actions : List HostAction) : State := { s with host := actions }

/-- The response of a result, as the bytes the host receives. -/
def answerOf (r : Result) : Option (List Byte) := (nextOf r).bind fun t => t.response.map responseBytes

/-! ### WellFormed: one ill-formed term for each check -/

theorem test_wf_good : (Instr.absorb 4 [0x41, 0x42, 0x43, 0x44]).wellFormed Config.keccak256 = true := by decide
theorem test_wf_arg_must_be_zero : (Instr.theta 1 []).wellFormed Config.keccak256 = false := by decide
theorem test_wf_round_number_24 : (Instr.iota 24 []).wellFormed Config.keccak256 = false := by decide
theorem test_wf_round_number_255 : (Instr.round 255 []).wellFormed Config.keccak256 = false := by decide
theorem test_wf_block_of_zero : (Instr.absorb 0 []).wellFormed Config.keccak256 = false := by decide
theorem test_wf_block_of_137 :
    (Instr.absorb 137 (List.replicate 137 0)).wellFormed Config.keccak256 = false := by decide
theorem test_wf_block_length : (Instr.absorb 4 [1, 2, 3]).wellFormed Config.keccak256 = false := by decide
theorem test_wf_state_199 : (Instr.ldstate 0 (List.replicate 199 0)).wellFormed Config.keccak256 = false := by decide +kernel
theorem test_wf_state_201 : (Instr.ldstate 0 (List.replicate 201 0)).wellFormed Config.keccak256 = false := by decide +kernel
theorem test_wf_payload_must_be_empty : (Instr.rdstate 0 [0]).wellFormed Config.keccak256 = false := by decide

/-! ### Decode: words written out bit by bit from R70 (OP in 15:8, ARG in 7:0) and R72 -/

theorem test_decode_theta : okOf (decode 0b0001000000000000 []) = some (.theta 0 []) := by decide
theorem test_decode_rhopi : okOf (decode 0b0001000100000000 []) = some (.rhopi 0 []) := by decide
theorem test_decode_chi : okOf (decode 0b0001001000000000 []) = some (.chi 0 []) := by decide
theorem test_decode_iota : okOf (decode 0b0001001100010111 []) = some (.iota 23 []) := by decide
theorem test_decode_round : okOf (decode 0b0001010000000001 []) = some (.round 1 []) := by decide
theorem test_decode_permute : okOf (decode 0b0001010100000000 []) = some (.permute 0 []) := by decide
theorem test_decode_ldstate : okOf (decode 0b0010000000000000 [7]) = some (.ldstate 0 [7]) := by decide
theorem test_decode_rdstate : okOf (decode 0b0010000100000000 []) = some (.rdstate 0 []) := by decide
theorem test_decode_init : okOf (decode 0b0011000000000000 []) = some (.init 0 []) := by decide
theorem test_decode_absorb :
    okOf (decode 0b0011000110001000 (List.replicate 136 0x61)) = some (.absorb 136 (List.replicate 136 0x61)) := by decide
theorem test_decode_final : okOf (decode 0b0011001000000000 []) = some (.final 0 []) := by decide
theorem test_decode_squeeze : okOf (decode 0b0011001100000000 []) = some (.squeeze 0 []) := by decide
theorem test_decode_rdstatus : okOf (decode 0b0100000000000000 []) = some (.rdstatus 0 []) := by decide

/-- V-E1: the first free value after each group is no opcode. -/
theorem test_decode_first_free_values :
    [0x1600, 0x2200, 0x3400, 0x4100, 0x5000, 0x0000, 0xFFFF].all (fun w => (okOf (decode w [])).isNone) = true := by decide

/-- R70: the OP byte comes first. -/
theorem test_bytes_op_first : okOf (decodeBytes [0x31, 0x04, 0x41, 0x42, 0x43, 0x44]) =
    some (.absorb 4 [0x41, 0x42, 0x43, 0x44]) := by decide
theorem test_bytes_truncated : okOf (decodeBytes [0x31]) = none := by decide
theorem test_encode_iota_23 : encodeBytes (.iota 23 []) = [0x13, 0x17] ∧ encode (.iota 23 []) = 0x1317 := by decide

/-- R72: no two rows of the opcode map share an opcode. -/
theorem test_opcodes_distinct : (opcodeMap.map Prod.fst).Pairwise (· ≠ ·) := by decide

theorem test_table_word_absorb : decodeTableWord 16 0x3104 = some (.absorb 4 [0, 0, 0, 0]) := by decide
theorem test_table_word_ldstate : decodeTableWord 16 0x2000 = some (.ldstate 0 (List.replicate 200 0)) := by
  decide +kernel
theorem test_fetch_word_runs :
    answerOf (step (State.reset.withFetchWord 16 0x4000)) = some [0x00, 0x00, 0x00] := by decide

/-! ### The permutation engine -/

/-- V-P1(d): the top bit of column 2 wraps around into column 1. -/
theorem test_theta_wraps :
    theta (zeros.set 7 0x8000000000000000) =
      #v[0, 1, 0, 0x8000000000000000, 0, 0, 1, 0x8000000000000000, 0x8000000000000000, 0,
         0, 1, 0, 0x8000000000000000, 0, 0, 1, 0, 0x8000000000000000, 0, 0, 1, 0, 0x8000000000000000, 0] := by
  decide +kernel

/-- V-P1(e). -/
theorem test_theta_idx :
    theta idx = #v[0x1a, 0x09, 0x0d, 0x1d, 0x2f, 0x1f, 0x0e, 0x08, 0x16, 0x22, 0x10, 0x03, 0x03, 0x13, 0x25,
      0x15, 0x18, 0x1e, 0x0c, 0x38, 0x0e, 0x1d, 0x19, 0x09, 0x33] := by decide +kernel

/-- V-P2(c). -/
theorem test_rhopi_idx :
    rhoPi idx = #v[0x0000000000000000, 0x0000600000000000, 0x0000600000000000, 0x0000000002400000, 0x0000000000060000,
      0x0000000030000000, 0x0000000000900000, 0x0000000000000050, 0x0002000000000000, 0xc000000000000002,
      0x0000000000000002, 0x00000000000001c0, 0x000000001a000000, 0x0000000000001300, 0x0000000000500000,
      0x0000000020000000, 0x0000005000000000, 0x0000000000002c00, 0x0000000000088000, 0x1700000000000000,
      0x8000000000000000, 0x0400000000000000, 0x0000070000000000, 0x00001e0000000000, 0x0000000000000054] := by
  decide +kernel

/-- R93's worked example: only `A[1] = 1`. -/
theorem test_rhopi_one_lane : rhoPi (zeros.set 1 1) = zeros.set 10 2 := by decide +kernel

/-- R95's worked example: row 0 = (0, 1, 2, 3, 4). -/
theorem test_chi_row : (chi (((zeros.set 1 1).set 2 2).set 3 3 |>.set 4 4)) =
    ((((zeros.set 0 2).set 2 6).set 3 3).set 4 5) := by decide +kernel

/-- V-P4(b): lane 3 of the row needs the old lane 0. -/
theorem test_chi_reads_old_row :
    chi ((zeros.set 0 0xFFFFFFFFFFFFFFFF).set 2 0xFFFFFFFFFFFFFFFF) =
      ((zeros.set 2 0xFFFFFFFFFFFFFFFF).set 3 0xFFFFFFFFFFFFFFFF) := by decide +kernel

/-- R96's worked example, and R162: no 25th constant. -/
theorem test_iota_1 : (nextOf (exec (.iota 1 []) (withLanes .raw (zeros.set 0 1)))).map (fun t => t.lanes[0]) =
    some 0x8083 := by decide +kernel
/-- R27: the constants at the ends of the three columns of the rule's table. -/
theorem test_rc_lines : RC[0] = 0x0000000000000001 ∧ RC[7] = 0x8000000000008009 ∧ RC[8] = 0x000000000000008A ∧
    RC[15] = 0x8000000000008003 ∧ RC[16] = 0x8000000000008002 ∧ RC[23] = 0x8000000080008008 := by decide
theorem test_iota_24 : answerOf (exec (.iota 24 []) (inPhase .raw)) = some [0x02] := by decide

/-- V-P3: ROUND 0 and ROUND 1 on the zero state. -/
theorem test_rounds_0_1 :
    keccakRound (keccakRound zeros 0) 1 =
      #v[0x0000000000008083, 0x0000100000000000, 0x0000000000008000, 0x0000000000000001, 0x0000100000008000,
         0x0000000000000000, 0x0000200000200000, 0x0000000000000000, 0x0000200000000000, 0x0000000000200000,
         0x0000000000000002, 0x0000000000000200, 0x0000000000000000, 0x0000000000000202, 0x0000000000000000,
         0x0000000010000400, 0x0000000000000000, 0x0000000000000400, 0x0000000010000000, 0x0000000000000000,
         0x0000010000000000, 0x0000000000000000, 0x0000010000000004, 0x0000000000000000, 0x0000000000000004] := by
  decide +kernel

/-- V-P5: PERMUTE on the zero state, all 25 lanes. -/
theorem test_permute_zeros :
    (nextOf (exec (.permute 0 []) (inPhase .raw))).map (fun t => t.lanes) = some
      #v[0xf1258f7940e1dde7, 0x84d5ccf933c0478a, 0xd598261ea65aa9ee, 0xbd1547306f80494d, 0x8b284e056253d057,
         0xff97a42d7f8e6fd4, 0x90fee5a0a44647c4, 0x8c5bda0cd6192e76, 0xad30a6f71b19059c, 0x30935ab7d08ffc64,
         0xeb5aa93f2317d635, 0xa9a6e6260d712103, 0x81a57c16dbcf555f, 0x43b831cd0347c826, 0x01f22f1a11a5569f,
         0x05e5635a21d9ae61, 0x64befef28cc970f2, 0x613670957bc46611, 0xb87c5a554fd00ecb, 0x8c3ee88a1ccf32c8,
         0x940c7922ae3a2614, 0x1841f924a2c509e4, 0x16f53526e70465c2, 0x75f644e97f30a13b, 0xeaf1ff7b5ceca249] := by
  decide +kernel

/-- V-E1: PERMUTE in IDLE. -/
theorem test_permute_idle : answerOf (exec (.permute 0 []) State.reset) = some [0x03] := by decide

/-! ### State transfer -/

/-- The bytes `00 01 02 ... c7` (RAMP of 95_test_vectors.md). -/
def ramp : List Byte := (List.range 200).map (BitVec.ofNat 8)

/-- V-T1: three of the lanes of RAMP. -/
theorem test_ldstate_ramp :
    (nextOf (exec (.ldstate 0 ramp) State.reset)).map (fun t => (t.lanes[0], t.lanes[17], t.lanes[24])) =
      some (0x0706050403020100, 0x8f8e8d8c8b8a8988, 0xc7c6c5c4c3c2c1c0) := by decide +kernel

/-- V-Y1: STATUS after LDSTATE. -/
theorem test_ldstate_status :
    (nextOf (exec (.ldstate 0 ramp) (absorbed 4))).map statusBytes = some [0x01, 0x00] := by decide +kernel

/-- V-T2: RDSTATE after LDSTATE of RAMP. -/
theorem test_rdstate_ramp :
    ((nextOf (exec (.ldstate 0 ramp) State.reset)).bind fun t => answerOf (exec (.rdstate 0 []) t)) =
      some (0x00 :: ramp) := by decide +kernel

/-- V-T4: the sponge state is not readable. -/
theorem test_rdstate_absorb : answerOf (exec (.rdstate 0 []) (inPhase .absorb)) = some [0x03] := by decide

/-! ### The sponge -/

/-- R121's worked example, and P7: INIT under an invalid configuration. -/
theorem test_init_status :
    (nextOf (exec (.init 0 []) State.reset)).map (fun t => (statusBytes t, t.lanes)) = some ([0x02, 0x00], zeros) := by
  decide +kernel
theorem test_init_config_fault :
    (nextOf (exec (.init 0 []) (instanceOf badConfig .raw))).map (fun t => (statusBytes t, t.response)) =
      some ([0x04, 0x00], some ⟨.configFault, []⟩) := by decide

/-- R122's worked example. -/
theorem test_absorb_abcd :
    (nextOf (exec (.absorb 4 [0x41, 0x42, 0x43, 0x44]) (inPhase .absorb))).map (fun t => (t.lanes, t.bs)) =
      some (zeros.set 0 0x0000000044434241, 4) := by decide +kernel

/-- V-S10: after a full block the first bytes of the permuted state, and BS = 0. -/
theorem test_absorb_full_block :
    (nextOf (exec (.absorb 136 (List.replicate 136 0x61)) (inPhase .absorb))).map
        (fun t => (memRead t.lanes 0 16, t.bs)) =
      some ([0xf1, 0xe1, 0xd2, 0x50, 0x4c, 0xec, 0x98, 0xd4, 0x74, 0x85, 0x9e, 0xc5, 0xe6, 0x8a, 0x99, 0xf6], 0) := by
  decide +kernel

/-- V-S8: the padding bytes coincide after 135 bytes `61`. -/
theorem test_padding_coincides :
    padLanes Config.keccak256 135 ((Vector.replicate 25 0).set 16 0x0061616161616161) =
      some ((Vector.replicate 25 0).set 16 0x8161616161616161) := by decide +kernel

/-- V-S5, R124's worked example: FINAL after `ABSORB 4 ["ABCD"]`, then SQUEEZE gives the digest of "ABCD". -/
theorem test_digest_of_abcd :
    ((nextOf (exec (.final 0 []) { absorbed 4 with lanes := zeros.set 0 0x0000000044434241 })).bind fun t =>
        answerOf (exec (.squeeze 0 []) t)) =
      some [0x00, 0x38, 0x07, 0x60, 0xBC, 0xAE, 0x8F, 0xA7, 0x2C, 0xDA, 0x68, 0xCC, 0xA2, 0x39, 0x9A, 0x57, 0x14, 0xD8,
        0xAC, 0xEC, 0xBE, 0x3E, 0x75, 0x05, 0x4B, 0xBC, 0x02, 0x88, 0x4F, 0xC9, 0x83, 0x7F, 0x3B] := by decide +kernel

/-- V-Y1 and V-E1: SQUEEZE ends the computation, and is refused before FINAL. -/
theorem test_squeeze_status :
    (nextOf (exec (.squeeze 0 []) (inPhase .ready))).map statusBytes = some [0x00, 0x00] := by decide +kernel
theorem test_squeeze_absorb : answerOf (exec (.squeeze 0 []) (inPhase .absorb)) = some [0x03] := by decide

/-! ### Status, refusals, reset -/

/-- V-Y1: STATUS after `ABSORB 135`, and in FAULT. -/
theorem test_rdstatus_partial : answerOf (exec (.rdstatus 0 []) (absorbed 135)) = some [0x00, 0x02, 0x87] := by decide
theorem test_rdstatus_fault :
    answerOf (exec (.rdstatus 0 []) (instanceOf badConfig .fault)) = some [0x00, 0x04, 0x00] := by decide

/-- V-E1: ILLEGAL_CMD before FAULTED, BAD_ARG before FAULTED, and FAULTED. -/
theorem test_illegal_before_faulted :
    answerOf (step (hosting (instanceOf badConfig .fault) [.command 0x0000 []])) = some [0x01] := by decide
theorem test_bad_arg_before_faulted : answerOf (exec (.absorb 0 []) (instanceOf badConfig .fault)) = some [0x02] := by
  decide
theorem test_faulted : answerOf (exec (.init 0 []) (instanceOf badConfig .fault)) = some [0x05] := by decide

/-- P7: reset leaves FAULT. -/
theorem test_reset_leaves_fault :
    (nextOf (step (hosting (instanceOf badConfig .fault) [.reset]))).map (fun t => (t.phase, t.response, t.cfg)) =
      some (.idle, none, badConfig) := by decide

/-- R52, R54: the rule's example, and the buffer written out lists the nonzero bytes only. -/
theorem test_buffer_cells : bufferCells (zeros.set 2 0x0100000000000002) = [(16, 0x02), (23, 0x01)] := by decide +kernel

/-! ### Witnesses: the hypotheses of the statements can be met -/

theorem witness_TransactionsAndCommandsCorrespond :
    decodeBytes [0x31, 0x01, 0xFF] = .ok (.absorb 1 [0xFF]) := rfl
theorem witness_IllegalOpcodesAreRefused :
    (hosting State.reset [.command 0x41FF [1]]).host = .command 0x41FF [1] :: [] ∧
      opField 0x41FF ∉ Claims.legalOpcodes := by decide
theorem witness_StepExecutesTheDecodedCommand :
    (hosting State.reset [.command 0x3000 [], .reset]).host = .command 0x3000 [] :: [.reset] ∧
      decode 0x3000 [] = .ok (.init 0 []) := ⟨rfl, rfl⟩
theorem witness_IdleEngineKeepsItsState : State.reset.host = [] := rfl
theorem witness_ResetActionResets :
    (hosting (inPhase .ready) [.reset]).host = .reset :: [] ∧
      (hosting (instanceOf Config.keccak256 .raw) [.reset]).host = .reset :: [] ∧
      (hosting (inPhase .ready) [.reset]).cfg = (hosting (instanceOf Config.keccak256 .raw) [.reset]).cfg ∧
      (hosting (inPhase .ready) [.reset]).freeCount =
        (hosting (instanceOf Config.keccak256 .raw) [.reset]).freeCount := ⟨rfl, rfl, rfl, rfl⟩
theorem witness_StepKeepsTheInvariant :
    Inv (hosting (absorbed 135) [.command 0x4000 []]) ∧
      ∃ t, step (hosting (absorbed 135) [.command 0x4000 []]) = .next t := ⟨by decide, _, rfl⟩
theorem witness_MachineNeverStops : Inv (absorbed 135) ∧ configCovered (absorbed 135).cfg := by decide
theorem witness_MachineNeverStops_fault :
    Inv (instanceOf badConfig .fault) ∧ configCovered (instanceOf badConfig .fault).cfg := by decide
theorem witness_StopsAreInadmissibleConfigurations :
    Inv (absorbed 135) ∧
      (instanceOf ⟨0, 1600, 1, 32⟩ .absorb).phase = .absorb ∧ (instanceOf ⟨0, 1600, 1, 32⟩ .absorb).cfg.byteRate = 0 ∧
      (instanceOf ⟨1088, 512, 1, 137⟩ .ready).phase = .ready ∧
      outlenAdmissible (instanceOf ⟨1088, 512, 1, 137⟩ .ready).cfg = false ∧
      (absorbed 200).phase = .absorb ∧ (absorbed 200).cfg.byteRate ≠ 0 ∧ 200 ≤ (absorbed 200).bs.toNat := by decide
theorem witness_PhaseTableHolds :
    Inv (absorbed 135) ∧ configCovered (absorbed 135).cfg ∧
      (Instr.absorb 136 (List.replicate 136 0)).wellFormed (absorbed 135).cfg = true ∧
      (hosting (absorbed 135) [.reset]).host = .reset :: [] := by decide +kernel
theorem witness_IllFormedCommandsAreRefused :
    (Instr.absorb 137 (List.replicate 137 0)).wellFormed State.reset.cfg = false := by decide
theorem witness_FirstCauseIsTheResponse_illegal :
    (hosting State.reset [.command 0x0000 []]).host = .command 0x0000 [] :: [] ∧
      Inv (hosting State.reset [.command 0x0000 []]) ∧
      configCovered (hosting State.reset [.command 0x0000 []]).cfg ∧ opField 0x0000 ∉ Claims.legalOpcodes := by decide
theorem witness_FirstCauseIsTheResponse_badArg :
    decode 0x1318 [] = .ok (.iota 24 []) ∧ Inv State.reset ∧ (Instr.iota 24 []).wellFormed State.reset.cfg = false :=
  ⟨rfl, by decide, by decide⟩
theorem witness_FirstCauseIsTheResponse_faulted :
    decode 0x1500 [] = .ok (.permute 0 []) ∧ Inv (instanceOf badConfig .fault) ∧
      (Instr.permute 0 []).wellFormed badConfig = true ∧ (Instr.permute 0 []).opcode ≠ 0x40 :=
  ⟨rfl, by decide, by decide, by decide⟩
theorem witness_FirstCauseIsTheResponse_badPhase :
    decode 0x1500 [] = .ok (.permute 0 []) ∧ Inv State.reset ∧
      (Claims.phaseTable (.permute 0 []) State.reset.phase true (State.reset.bs == 0)).1 = .badPhase :=
  ⟨rfl, by decide, by decide⟩
theorem witness_FirstCauseIsTheResponse_configFault :
    decode 0x3000 [] = .ok (.init 0 []) ∧ Inv (instanceOf badConfig .idle) ∧ configCovered badConfig ∧
      (Instr.init 0 []).wellFormed badConfig = true ∧ configValid badConfig = false :=
  ⟨rfl, by decide, by decide, by decide, by decide⟩
theorem witness_RefusedCommandsLeaveNoTrace :
    ∃ t, step (hosting State.reset [.command 0x1500 []]) = .next t ∧ t.response = some ⟨.badPhase, []⟩ := ⟨_, rfl, rfl⟩
theorem witness_ConfigFaultEntry :
    (instanceOf badConfig .raw).phase ≠ .fault ∧ configValid (instanceOf badConfig .raw).cfg = false ∧
      Inv (instanceOf badConfig .raw) ∧
      codeOf (exec (.init 0 []) (instanceOf badConfig .raw)) = some .configFault := by decide
theorem witness_OnlyResetLeavesFault :
    (instanceOf badConfig .fault).phase = .fault ∧
      (Instr.ldstate 0 (List.replicate 200 0)).wellFormed (instanceOf badConfig .fault).cfg = true ∧
      (Instr.ldstate 0 (List.replicate 200 0)).opcode ≠ 0x40 ∧
      (nextOf (step (hosting (instanceOf badConfig .fault) [.command 0x4000 []]))).isSome = true ∧
      (hosting (instanceOf badConfig .fault) [.reset]).host = .reset :: [] ∧
      (hosting (instanceOf badConfig .fault) [.reset, send (.init 0 [])]).host =
        .reset :: send (.init 0 []) :: [] := by decide +kernel
theorem witness_EngineCommandsNeedPhaseRaw :
    Claims.isEngineCommand (.round 23 []) = true ∧ (Instr.round 23 []).wellFormed (inPhase .raw).cfg = true ∧
      (inPhase .raw).phase = .raw ∧ (inPhase .ready).phase ≠ .raw := by decide
theorem witness_ThetaMixesColumnParities :
    (inPhase .raw).phase = .raw ∧ (inPhase .fault).phase ≠ .raw ∧ ¬((1 : Byte) = 0 ∧ ([] : List Byte) = []) := by decide
theorem witness_RhopiWalksTheCarryLane :
    (inPhase .raw).phase = .raw ∧ (inPhase .idle).phase ≠ .raw ∧ ¬((0 : Byte) = 0 ∧ ([0] : List Byte) = []) ∧
      22 + 1 < 24 := by decide
theorem witness_ChiCombinesRows :
    (inPhase .raw).phase = .raw ∧ (inPhase .absorb).phase ≠ .raw ∧ ¬((255 : Byte) = 0 ∧ ([] : List Byte) = []) := by
  decide
theorem witness_IotaInjectsTheRoundConstant :
    (23 : Byte).toNat < 24 ∧ (inPhase .raw).phase = .raw ∧ (24 ≤ (24 : Byte).toNat ∨ ([] : List Byte) ≠ []) ∧
      (inPhase .fault).phase ≠ .raw := by decide
theorem witness_RoundIsFourCommands : (23 : Byte).toNat < 24 ∧ (withLanes .raw idx).phase = .raw := by decide
theorem witness_PermuteIsTwentyFourRounds : (withLanes .raw idx).phase = .raw := rfl
theorem witness_PermuteMovesTheZeroState :
    (inPhase .raw).phase = .raw ∧ (inPhase .raw).lanes = Claims.uniform 0 := ⟨rfl, rfl⟩
theorem witness_RotationMovesBits : 63 < 64 ∧ 0 < 64 ∧ 1 ≤ 63 ∧ 63 ≤ 63 ∧ 1 ≤ 1 := by decide
theorem witness_LanesAndBytesAreOneStorage : 24 < 25 ∧ 63 < 64 := by decide
theorem witness_ConversionsAreInverse :
    (Vector.ofFn fun k : Fin 200 => byteAt idx k).toList = lanesToBytes idx ∧
      (Vector.ofFn fun k : Fin 200 => BitVec.ofNat 8 k.val).toList.take 8 =
        [0x00, 0x01, 0x02, 0x03, 0x04, 0x05, 0x06, 0x07] := by decide +kernel
theorem witness_WrittenOutBufferDeterminesTheLanes : 200 ≤ 200 ∧ bufferCells idx = bufferCells idx := by decide +kernel
theorem witness_LdstateLoadsThePayload :
    ramp.length = 200 ∧ (absorbed 135).phase ≠ .fault ∧ (inPhase .fault).phase = .fault ∧
      ((0 : Byte) ≠ 0 ∨ (List.replicate 199 (0 : Byte)).length ≠ 200) ∧ ((1 : Byte) ≠ 0 ∨ ramp.length ≠ 200) := by
  decide +kernel
theorem witness_RdstateReturnsTheBuffer :
    (withLanes .raw idx).phase = .raw ∧ (inPhase .ready).phase ≠ .raw ∧
      ¬((1 : Byte) = 0 ∧ ([] : List Byte) = []) := by decide
theorem witness_RdstateReadsBackLdstate : ramp.length = 200 ∧ (inPhase .ready).phase ≠ .fault := by decide +kernel
theorem witness_InitIsLdstateOfZeros :
    (inPhase .ready).phase ≠ .fault ∧ configValid (inPhase .ready).cfg = true := by decide
theorem witness_InitStartsASponge :
    (inPhase .raw).phase ≠ .fault ∧ (inPhase .raw).cfg.rate.val + (inPhase .raw).cfg.capacity.val = 1600 ∧
      (inPhase .raw).cfg.rate.val % 8 = 0 ∧
      ¬((instanceOf ⟨1084, 516, 1, 32⟩ .idle).cfg.rate.val + (instanceOf ⟨1084, 516, 1, 32⟩ .idle).cfg.capacity.val = 1600 ∧
        (instanceOf ⟨1084, 516, 1, 32⟩ .idle).cfg.rate.val % 8 = 0) ∧
      (inPhase .fault).phase = .fault ∧ ¬((0 : Byte) = 0 ∧ ([0] : List Byte) = []) := by decide
theorem witness_AbsorbXorsOneBlock_partial_and_full :
    (absorbed 0).phase = .absorb ∧ (absorbed 0).bs = 0 ∧ 1 ≤ (135 : Byte).toNat ∧
      (135 : Byte).toNat ≤ (absorbed 0).cfg.byteRate ∧ (List.replicate 135 (0 : Byte)).length = (135 : Byte).toNat ∧
      (136 : Byte).toNat = (absorbed 0).cfg.byteRate ∧ (List.replicate 136 (0 : Byte)).length = (136 : Byte).toNat := by
  decide +kernel
theorem witness_AbsorbXorsOneBlock_refusals :
    (0 : Byte).toNat = 0 ∧ (absorbed 0).cfg.byteRate < (137 : Byte).toNat ∧
      ([1, 2, 3] : List Byte).length ≠ (4 : Byte).toNat ∧ (inPhase .fault).phase = .fault ∧
      (inPhase .raw).phase ≠ .fault ∧ (inPhase .raw).phase ≠ .absorb ∧ (absorbed 4).bs ≠ 0 := by decide
theorem witness_FinalPadsAndPermutes :
    (absorbed 135).phase = .absorb ∧ (absorbed 135).bs.toNat < (absorbed 135).cfg.byteRate ∧
      (absorbed 0).bs.toNat < (absorbed 0).cfg.byteRate ∧ (inPhase .ready).phase ≠ .absorb ∧
      ¬((1 : Byte) = 0 ∧ ([] : List Byte) = []) := by decide
theorem witness_SqueezeReturnsTheDigestOnce :
    (withLanes .ready idx).phase = .ready ∧ outlenAdmissible (withLanes .ready idx).cfg = true ∧
      (absorbed 4).phase ≠ .ready ∧ ¬((1 : Byte) = 0 ∧ ([] : List Byte) = []) := by decide
theorem witness_Keccak256ComputesTheSpongeDigest :
    configAdmissible Config.keccak256 = true ∧ (absorbed 4).phase ≠ .fault ∧
      (hosting (absorbed 4) (keccak256Actions Config.keccak256 [0x61] ++ [.reset])).host =
        keccak256Actions Config.keccak256 [0x61] ++ [.reset] := by decide
theorem witness_RdstatusAnswersInEveryPhase :
    ¬((1 : Byte) = 0 ∧ ([] : List Byte) = []) ∧ (inPhase .fault).phase = .fault ∧
      codeOf (exec (.rdstatus 0 []) (inPhase .fault)) = some .ok ∧ Inv (absorbed 135) ∧ (absorbed 135).bs ≠ 0 := by decide
theorem witness_CommandsWriteOnlyTheirOwnState :
    (nextOf (exec (.absorb 4 [1, 2, 3, 4]) (absorbed 0))).isSome = true ∧ (4 : Byte).toNat < (absorbed 0).cfg.byteRate ∧
      (nextOf (exec (.rhopi 0 []) (inPhase .raw))).isSome = true ∧
      (nextOf (exec (.iota 23 []) (inPhase .raw))).isSome = true ∧
      (nextOf (exec (.rdstate 0 []) (inPhase .raw))).isSome = true := by decide +kernel
theorem witness_NothingWritesTheConfiguration :
    ∃ t, Claims.run 1 (hosting (inPhase .fault) [.reset]) = .next t := ⟨_, rfl⟩
theorem witness_ResponsesHaveTheirLength : ∃ t, exec (.squeeze 0 []) (inPhase .ready) = .next t := ⟨_, rfl⟩
theorem witness_RepeatableCommandsRepeat :
    (Instr.rdstatus 0 []).opcode = 0x40 ∧ codeOf (exec (.rdstatus 0 []) (absorbed 4)) = some .ok ∧
      (Instr.init 0 []).opcode = 0x30 ∧ codeOf (exec (.init 0 []) (absorbed 4)) = some .ok := by decide
theorem witness_AcceptanceIgnoresTheData :
    encode (.absorb 1 [0x00]) = encode (.absorb 1 [0xFF]) ∧ ([0x00] : List Byte).length = ([0xFF] : List Byte).length ∧
      (withLanes .absorb idx).phase = (absorbed 0).phase ∧ (withLanes .absorb idx).bs = (absorbed 0).bs ∧
      (withLanes .absorb idx).cfg = (absorbed 0).cfg := by decide
theorem witness_CapacityIsNotObservable :
    (withLanes .ready zeros).phase = .ready ∧
      (withLanes .ready (zeros.set 17 1)) = { withLanes .ready zeros with lanes := (zeros.set 17 1) } ∧
      (∀ k : Fin 200, k.val < (withLanes .ready zeros).cfg.byteRate → byteAt (zeros.set 17 1) k = byteAt zeros k) ∧
      (nextOf (exec (.squeeze 0 []) (withLanes .ready zeros))).isSome = true := by decide +kernel
theorem witness_ValuelessLanesAreNeverObserved :
    SameButValueless (withLanes .idle zeros) (withLanes .idle idx) ∧
      SameButValueless (withLanes .raw idx) (withLanes .raw idx) := by decide +kernel

end Sys2Proof.Tests
end

section
/-! The scope statements (family 00_scope.md): a step executes the decoded command, rotation moves bits, and the only stops
of the machine. First the rules the three rest on, then the theorems that settle them. -/

namespace Sys2Proof.Machine

open Sys2Proof

/-! ### The step on a transaction -/

/-- A step on a transaction that decodes to a command executes that command, the transaction taken (R83). -/
theorem step_eq_exec_of_decode {s : State} {w : CmdWord} {payload : List Byte} {rest : List HostAction} {i : Instr}
    (hhost : s.host = .command w payload :: rest) (hdecode : decode w payload = .ok i) :
    step s = exec i { s with host := rest } := by
  simp [step, State.takeAction, hhost, hdecode]

/-! ### Rotation -/

/-- Below the lane's width the model's rotation is the library's. -/
theorem rotl64_eq_rotateLeft (a : Lane) {n : Nat} (hn : n < 64) : rotl64 a n = a.rotateLeft n :=
  (BitVec.rotateLeft_eq_rotateLeftAux_of_lt hn).symm

/-- Bit `i` of a lane is bit `(i + n) mod 64` of the lane rotated by `n` (R11). -/
theorem rotl64_getLsbD (a : Lane) {n i : Nat} (hn : n < 64) (hi : i < 64) :
    (rotl64 a n).getLsbD ((i + n) % 64) = a.getLsbD i := by
  rw [rotl64_eq_rotateLeft a hn, BitVec.getLsbD_rotateLeft, Nat.mod_eq_of_lt hn]
  by_cases hwrap : i + n < 64
  · have hbit : (i + n) % 64 = i + n := Nat.mod_eq_of_lt hwrap
    simp [hbit, hwrap]
  · have hbit : (i + n) % 64 = i + n - 64 := by omega
    have hlow : i + n - 64 < n := by omega
    have hback : 64 - n + (i + n - 64) = i := by omega
    simp [hbit, hlow, hback]

/-- Rotating by `n` and then by `64 - n` gives the lane back (R100): bit `j` goes to `(j + n) mod 64` and from there home. -/
theorem rotl64_rotl64_sub (a : Lane) {n : Nat} (hpos : 1 ≤ n) (hn : n ≤ 63) : rotl64 (rotl64 a n) (64 - n) = a := by
  apply BitVec.eq_of_getLsbD_eq
  intro j hj
  have hhome : ((j + n) % 64 + (64 - n)) % 64 = j := by omega
  calc (rotl64 (rotl64 a n) (64 - n)).getLsbD j
      = (rotl64 (rotl64 a n) (64 - n)).getLsbD (((j + n) % 64 + (64 - n)) % 64) := by rw [hhome]
    _ = (rotl64 a n).getLsbD ((j + n) % 64) := rotl64_getLsbD _ (by omega) (Nat.mod_lt _ (by decide))
    _ = a.getLsbD j := rotl64_getLsbD a (by omega) hj

/-! ### FINAL and SQUEEZE in their phase -/

/-- A well-formed FINAL in phase ABSORB is performed. -/
theorem exec_final_of_absorb {s : State} (h : s.phase = .absorb) : exec (.final 0 []) s = s.finalise := by
  simp [exec, execFinal, accept, h]

/-- A well-formed SQUEEZE in phase READY is performed. -/
theorem exec_squeeze_of_ready {s : State} (h : s.phase = .ready) : exec (.squeeze 0 []) s = s.squeezeDigest := by
  simp [exec, execSqueeze, accept, h]

/-- A well-formed FINAL has ARG 0 and no payload (R73, R74). -/
theorem wellFormed_final_iff {c : Config} {a : Byte} {p : List Byte} :
    (Instr.final a p).wellFormed c = true ↔ a = 0 ∧ p = [] := by
  simp [Instr.wellFormed, Instr.argLegal, Instr.requiredPayload, Instr.payload]

/-- A well-formed SQUEEZE has ARG 0 and no payload (R73, R74). -/
theorem wellFormed_squeeze_iff {c : Config} {a : Byte} {p : List Byte} :
    (Instr.squeeze a p).wellFormed c = true ↔ a = 0 ∧ p = [] := by
  simp [Instr.wellFormed, Instr.argLegal, Instr.requiredPayload, Instr.payload]

/-- The block of a well-formed ABSORB fits the buffer (R55, R74). -/
theorem length_le_200_of_wellFormed_absorb {c : Config} {a : Byte} {p : List Byte}
    (h : (Instr.absorb a p).wellFormed c = true) : p.length ≤ 200 := by
  have hlen : (1 ≤ a.toNat ∧ a.toNat ≤ c.byteRate) ∧ p.length = a.toNat := by
    simpa [Instr.wellFormed, Instr.argLegal, Instr.requiredPayload, Instr.payload] using h
  have := byteRate_le_200 c
  omega

/-- The padding of FINAL leaves the buffer exactly when BS does (R50). -/
theorem padLanes_eq_none_iff {c : Config} {bs : Nat} {A : Lanes} : padLanes c bs A = none ↔ 200 ≤ bs := by
  constructor
  · intro hnone
    by_contra hbs
    obtain ⟨A', hsome, -⟩ := padLanes_spec c bs A (by omega)
    simp [hnone] at hsome
  · intro hbs
    simp [padLanes, xorAt_none A c.suffix hbs]

/-- In a state of the invariant BS is inside the buffer (R24, R55). -/
theorem bs_lt_200_of_blockSizeInv {s : State} (h : blockSizeInv s) : s.bs.toNat < 200 := by
  have := byteRate_le_200 s.cfg
  rcases h with hzero | ⟨-, hlt⟩
  · simp [hzero]
  · omega

/-! ### The only stops -/

/-- FINAL under a configuration without a whole byte of rate is refused by name. -/
theorem finalise_of_byteRate_eq_zero {s : State} (h : s.cfg.byteRate = 0) :
    s.finalise = .refused .inadmissibleConfig := by
  simp [State.finalise, h]

/-- FINAL with BS outside the buffer faults. -/
theorem finalise_of_200_le_bs {s : State} (hrate : s.cfg.byteRate ≠ 0) (hbs : 200 ≤ s.bs.toNat) :
    s.finalise = .fault .outsideBuffer := by
  simp [State.finalise, hrate, padLanes_eq_none_iff.mpr hbs]

/-- SQUEEZE with OUTLEN outside `1..BYTE_RATE` is refused by name. -/
theorem squeezeDigest_of_not_outlenAdmissible {s : State} (h : outlenAdmissible s.cfg = false) :
    s.squeezeDigest = .refused .inadmissibleConfig := by
  simp [State.squeezeDigest, h]

/-- What it is for a command to stop under an inadmissible configuration: FINAL without a whole byte of rate, or SQUEEZE
without a digest of one block (R8). -/
def StopsInadmissible (i : Instr) (s : State) : Prop :=
  (i = .final 0 [] ∧ s.phase = .absorb ∧ s.cfg.byteRate = 0) ∨
    (i = .squeeze 0 [] ∧ s.phase = .ready ∧ outlenAdmissible s.cfg = false)

/-- A well-formed command performed with BS in its range answers a next state, unless it is one of the two stops. -/
theorem performed_answers_or_stops {i : Instr} {s : State} (hbs : blockSizeInv s) (hwf : i.wellFormed s.cfg = true)
    (hp : Performed i s) :
    (∃ t, exec i s = .next t) ∨ (exec i s = .refused .inadmissibleConfig ∧ StopsInadmissible i s) := by
  cases i with
  | theta _ _ | rhopi _ _ | chi _ _ | permute _ _ | rdstate _ _ | init _ _ =>
    obtain ⟨-, hexec⟩ := hp
    exact .inl ⟨_, hexec⟩
  | iota _ _ | round _ _ | ldstate _ _ =>
    obtain ⟨_, -, -, hexec⟩ := hp
    exact .inl ⟨_, hexec⟩
  | rdstatus _ _ => exact .inl ⟨_, hp⟩
  | absorb _ p =>
    obtain ⟨-, -, hexec⟩ := hp
    obtain ⟨_, -, -, hnext⟩ := absorbBlock_spec s p (length_le_200_of_wellFormed_absorb hwf)
    exact .inl ⟨_, hexec.trans hnext⟩
  | final _ _ =>
    obtain ⟨rfl, rfl⟩ := wellFormed_final_iff.mp hwf
    obtain ⟨hphase, hexec⟩ := hp
    rcases finalise_cases s with ⟨hrate, hstop⟩ | ⟨-, hpad, -⟩ | ⟨_, -, -, hnext⟩
    · exact .inr ⟨hexec.trans hstop, .inl ⟨rfl, hphase, hrate⟩⟩
    · exact absurd (padLanes_eq_none_iff.mp hpad) (Nat.not_le.mpr (bs_lt_200_of_blockSizeInv hbs))
    · exact .inl ⟨_, hexec.trans hnext⟩
  | squeeze _ _ =>
    obtain ⟨rfl, rfl⟩ := wellFormed_squeeze_iff.mp hwf
    obtain ⟨hphase, hexec⟩ := hp
    rcases squeezeDigest_cases s with ⟨hout, hstop⟩ | ⟨-, hnext⟩
    · exact .inr ⟨hexec.trans hstop, .inr ⟨rfl, hphase, hout⟩⟩
    · exact .inl ⟨_, hexec.trans hnext⟩

/-- With BS in its range a command answers a next state, unless it is one of the two stops. -/
theorem exec_answers_or_stops (i : Instr) {s : State} (hbs : blockSizeInv s) :
    (∃ t, exec i s = .next t) ∨ (exec i s = .refused .inadmissibleConfig ∧ StopsInadmissible i s) := by
  rcases exec_cases i s with ⟨_, -, hrefused⟩ | ⟨hwf, hp⟩
  · exact .inl ⟨_, hrefused⟩
  · exact performed_answers_or_stops hbs hwf hp

/-! ### The obligations -/

/-- Settles O4, by the rule for a step on a transaction that decodes. -/
theorem stepExecutesTheDecodedCommand : Obligations.StepExecutesTheDecodedCommand :=
  fun _ _ _ _ _ hhost hdecode => step_eq_exec_of_decode hhost hdecode

/-- Settles O27: the bit law, and from it the inverse, bit by bit. -/
theorem rotationMovesBits : Obligations.RotationMovesBits :=
  ⟨fun a _ _ hn hi => rotl64_getLsbD a hn hi, fun a _ hpos hn => rotl64_rotl64_sub a hpos hn⟩

/-- Settles O11: of the commands performed only FINAL and SQUEEZE can stop, and the invariant keeps BS inside the buffer, so
FINAL does not fault. -/
theorem stopsAreInadmissibleConfigurations : Obligations.StopsAreInadmissibleConfigurations := by
  refine ⟨fun i s hinv => ?_, fun s hphase hrate => ?_, fun s hphase hout => ?_, fun s hphase hrate hbs => ?_⟩
  · obtain ⟨hbs, -, -⟩ := hinv
    exact exec_answers_or_stops i hbs
  · rw [exec_final_of_absorb hphase, finalise_of_byteRate_eq_zero hrate]
  · rw [exec_squeeze_of_ready hphase, squeezeDigest_of_not_outlenAdmissible hout]
  · rw [exec_final_of_absorb hphase, finalise_of_200_le_bs hrate hbs]

end Sys2Proof.Machine
end

section
/-! The state statements (family 10_state.md), the registers: lanes and bytes as one storage, the tables, STATUS, the reset
values. -/

namespace Sys2Proof.Machine

open Sys2Proof

/-- `bytes_to_lanes` of the byte view gives the lanes back (R54). -/
theorem bytesToLanes_ofFn_byteAt (A : Lanes) : bytesToLanes (Vector.ofFn (byteAt A)) = A :=
  lanes_ext fun k => by rw [byteAt_bytesToLanes, Vector.getElem_ofFn]

/-- Bit `n` of lane `i` is bit `n mod 8` of byte `8i + n div 8` (R22, R51). -/
theorem lane_getLsbD_eq_byteAt (A : Lanes) {i n : Nat} (hi : i < 25) (hn : n < 64) :
    A[i].getLsbD n = (byteAt A ⟨8 * i + n / 8, by omega⟩).getLsbD (n % 8) := by
  have hlane : (8 * i + n / 8) / 8 = i := by omega
  have hbit : 8 * ((8 * i + n / 8) % 8) + n % 8 = n := by omega
  have hmod : n % 8 < 8 := Nat.mod_lt _ (by decide)
  simp only [byteAt_getLsbD, hlane, hbit, hmod, decide_true, Bool.true_and]

/-- A write of byte `k` changes the eight bits of the byte in its lane, and no others (R22). -/
theorem setByte_getLsbD (A : Lanes) (k : Fin 200) (b : Byte) {i n : Nat} (hi : i < 25) (hn : n < 64) :
    ((setByte A k b)[i]).getLsbD n =
      if 8 * k.val ≤ 64 * i + n ∧ 64 * i + n < 8 * k.val + 8 then b.getLsbD (64 * i + n - 8 * k.val)
      else A[i].getLsbD n := by
  rw [lane_getLsbD_eq_byteAt _ hi hn, lane_getLsbD_eq_byteAt A hi hn, byteAt_setByte]
  by_cases hk : 8 * i + n / 8 = k.val
  · have hbit : n % 8 = 64 * i + n - 8 * k.val := by omega
    rw [if_pos (Fin.ext hk), if_pos (by omega), hbit]
  · rw [if_neg fun heq => hk (congrArg Fin.val heq), if_neg (by omega)]

/-- A write of lane `i` changes the bytes `8i` to `8i + 7`, to those of the value, and no others (R22). -/
theorem byteAt_set (A : Lanes) (i : Fin 25) (v : Lane) (k : Fin 200) :
    byteAt (A.set i.val v) k =
      if k.val / 8 = i.val then v.extractLsb' (8 * (k.val % 8)) 8 else byteAt A k := by
  unfold byteAt
  rw [Vector.getElem_set]
  by_cases hlane : k.val / 8 = i.val
  · rw [if_pos hlane.symm, if_pos hlane]
  · rw [if_neg (Ne.symm hlane), if_neg hlane]

/-- A lane is its eight bytes, least significant first (R51). -/
theorem lane_eq_bytes (A : Lanes) (i : Nat) (h : i < 25) :
    A[i] =
      (byteAt A ⟨8 * i, by omega⟩).setWidth 64 ||| (byteAt A ⟨8 * i + 1, by omega⟩).setWidth 64 <<< 8 |||
      (byteAt A ⟨8 * i + 2, by omega⟩).setWidth 64 <<< 16 ||| (byteAt A ⟨8 * i + 3, by omega⟩).setWidth 64 <<< 24 |||
      (byteAt A ⟨8 * i + 4, by omega⟩).setWidth 64 <<< 32 ||| (byteAt A ⟨8 * i + 5, by omega⟩).setWidth 64 <<< 40 |||
      (byteAt A ⟨8 * i + 6, by omega⟩).setWidth 64 <<< 48 ||| (byteAt A ⟨8 * i + 7, by omega⟩).setWidth 64 <<< 56 := by
  conv_lhs => rw [← bytesToLanes_ofFn_byteAt A]
  simp only [bytesToLanes, Vector.getElem_ofFn]

/-- Settles O29, clause by clause: the lane as its bytes, a byte written, a lane written. -/
theorem lanesAndBytesAreOneStorage : Obligations.LanesAndBytesAreOneStorage :=
  ⟨lane_eq_bytes, fun A k b _ _ hi hn => setByte_getLsbD A k b hi hn, byteAt_set⟩

/-- The written-out buffer determines every byte, hence the lanes (R22). -/
theorem bufferCells_injective : Function.Injective bufferCells := by
  intro A B h
  refine lanes_ext fun k => Option.some.inj ?_
  rw [← read_bufferCells, ← read_bufferCells, h]

/-- Settles O31: outside the address space nothing is read, and the written-out buffer determines every byte. -/
theorem writtenOutBufferDeterminesTheLanes : Obligations.WrittenOutBufferDeterminesTheLanes :=
  ⟨fun _ _ h => if_neg (Nat.not_lt.mpr h), fun _ _ h => bufferCells_injective h⟩

/-- Settles O28, clause by clause: each is a check of the 24 entries of a table. -/
theorem tablesFollowTheirGeneratingRules : Obligations.TablesFollowTheirGeneratingRules :=
  ⟨by decide, by decide, by decide, by decide, by decide, by decide, by decide, by decide⟩

/-- Settles O41: the fields of STATUS are the three words it is put together from. -/
theorem statusFields : Obligations.StatusFields :=
  ⟨rfl, rfl, rfl, rfl, rfl, fun _ =>
    ⟨BitVec.extractLsb'_append_eq_right,
      (BitVec.extractLsb'_append_eq_of_le (by decide)).trans BitVec.extractLsb'_append_eq_right,
      (BitVec.extractLsb'_append_eq_of_le (by decide)).trans BitVec.extractLsb'_append_eq_left⟩⟩

/-- Settles O6. -/
theorem resetStateHasTheResetValues : Obligations.ResetStateHasTheResetValues := by
  unfold Obligations.ResetStateHasTheResetValues
  decide

end Sys2Proof.Machine
end

section
/-! The state statements, the commands: what a command that answers has written, what it has left, and the invariant. -/

namespace Sys2Proof.Machine

open Sys2Proof

/-! ### What an accepted sponge command that answers has written -/

/-- The length of a well-formed block is ARG, and at most BYTE_RATE (R73, R74). -/
theorem length_of_wellFormed_absorb {c : Config} {a : Byte} {p : List Byte}
    (h : (Instr.absorb a p).wellFormed c = true) : p.length = a.toNat ∧ a.toNat ≤ c.byteRate := by
  simp only [Instr.wellFormed, Instr.argLegal, Instr.requiredPayload, Instr.payload, Bool.and_eq_true,
    decide_eq_true_eq, beq_iff_eq] at h
  obtain ⟨⟨-, hle⟩, hlen⟩ := h
  exact ⟨hlen, hle⟩

/-- ABSORB that answers: the block is in the buffer, BS is its length, and a full block was permuted. -/
theorem absorbBlock_next {s t : State} {block : List Byte} (h : s.absorbBlock block = .next t) :
    ∃ A, xorFrom s.lanes 0 block = some A ∧
      t = { s with lanes := A, bs := BitVec.ofNat 8 block.length }.permuteIfFull.respond .ok [] := by
  unfold State.absorbBlock at h
  cases hx : xorFrom s.lanes 0 block with
  | none => simp [hx] at h
  | some A =>
    simp only [hx, Host.Outcome.next.injEq] at h
    exact ⟨A, rfl, h.symm⟩

/-- FINAL that answers: permuted lanes, BS 0, phase READY. -/
theorem finalise_next {s t : State} (h : s.finalise = .next t) :
    ∃ A, t = { s with lanes := A, bs := 0, phase := .ready, response := some ⟨.ok, []⟩ } := by
  rcases finalise_cases s with ⟨-, hstop⟩ | ⟨-, -, hfault⟩ | ⟨A, -, -, hnext⟩
  · simp [hstop] at h
  · simp [hfault] at h
  · exact ⟨keccakF A, by simpa [hnext] using h.symm⟩

/-- SQUEEZE that answers: the lanes lost, BS 0, phase IDLE. -/
theorem squeezeDigest_next {s t : State} (h : s.squeezeDigest = .next t) :
    t = { s.loseLanes with
      bs := 0, phase := .idle, response := some ⟨.ok, memRead s.lanes 0 s.cfg.outlen.toNat⟩ } := by
  rcases squeezeDigest_cases s with ⟨-, hstop⟩ | ⟨-, hnext⟩
  · simp [hstop] at h
  · simpa [hnext] using h.symm

/-! ### Frames -/

/-- A command is known by its opcode: it is the command of the opcode map at that entry (R72). -/
theorem eq_of_opcode {i : Instr} {op : Byte} {command : Byte → List Byte → Instr} (hop : i.opcode = op)
    (hmap : opcodeMap.lookup op = some command) : i = command i.arg i.payload := by
  subst hop
  cases i <;> cases hmap <;> rfl

/-- An engine command that answers has written lanes and response at most. -/
theorem exec_engine_frame {i : Instr} {s t : State} (hi : Claims.isEngineCommand i = true) (h : exec i s = .next t) :
    t = { s with lanes := t.lanes, response := t.response } := by
  rcases exec_cases i s with ⟨_, -, hrefused⟩ | ⟨-, hp⟩
  · cases hrefused.symm.trans h
    rfl
  · cases i with
    | theta _ _ | rhopi _ _ | chi _ _ | permute _ _ =>
      obtain ⟨-, hexec⟩ := hp
      cases hexec.symm.trans h
      rfl
    | iota _ _ | round _ _ =>
      obtain ⟨_, -, -, hexec⟩ := hp
      cases hexec.symm.trans h
      rfl
    | ldstate _ _ | rdstate _ _ | init _ _ | absorb _ _ | final _ _ | squeeze _ _ | rdstatus _ _ => nomatch hi

/-- RDSTATE that answers has written the response only (R111). -/
theorem exec_rdstate_frame {a : Byte} {p : List Byte} {s t : State} (h : exec (.rdstate a p) s = .next t) :
    t = { s with response := t.response } := by
  rcases exec_cases (.rdstate a p) s with ⟨_, -, hrefused⟩ | ⟨-, -, hexec⟩
  · cases hrefused.symm.trans h
    rfl
  · cases hexec.symm.trans h
    rfl

/-- RDSTATUS that answers has written the response only (R141). -/
theorem exec_rdstatus_frame {a : Byte} {p : List Byte} {s t : State} (h : exec (.rdstatus a p) s = .next t) :
    t = { s with response := t.response } := by
  rcases exec_cases (.rdstatus a p) s with ⟨_, -, hrefused⟩ | ⟨-, hexec⟩
  · cases hrefused.symm.trans h
    rfl
  · cases Eq.trans (Eq.symm hexec) h
    rfl

/-- After a block that is not full nothing is permuted (R122). -/
theorem permuteIfFull_of_ne {s : State} (h : s.bs.toNat ≠ s.cfg.byteRate) : s.permuteIfFull = s := if_neg h

/-- ABSORB that answers has left PHASE, and after a block shorter than BYTE_RATE the bytes past the block (R122). -/
theorem exec_absorb_frame {a : Byte} {p : List Byte} {s t : State} (h : exec (.absorb a p) s = .next t) :
    t.phase = s.phase ∧
      (a.toNat < s.cfg.byteRate → ∀ k : Fin 200, a.toNat ≤ k.val → byteAt t.lanes k = byteAt s.lanes k) := by
  rcases exec_cases (.absorb a p) s with ⟨_, -, hrefused⟩ | ⟨hwf, -, -, hexec⟩
  · cases hrefused.symm.trans h
    exact ⟨rfl, fun _ _ _ => rfl⟩
  · obtain ⟨A, -, hbytes, hnext⟩ := absorbBlock_spec s p (length_le_200_of_wellFormed_absorb hwf)
    cases (hexec.trans hnext).symm.trans h
    refine ⟨by simp, fun hpartial k hk => ?_⟩
    obtain ⟨hlen, -⟩ := length_of_wellFormed_absorb hwf
    have hpast : p.getD k.val 0 = 0#8 := List.getD_eq_default _ _ (hlen.trans_le hk)
    have hbs : (BitVec.ofNat 8 p.length).toNat ≠ s.cfg.byteRate := by
      rw [hlen, BitVec.ofNat_toNat, BitVec.setWidth_eq]
      exact Nat.ne_of_lt hpartial
    rw [permuteIfFull_of_ne hbs]
    exact (hbytes k).trans (by rw [hpast, BitVec.xor_zero])

/-- The walk never visits lane 0 (R29). -/
theorem zero_not_mem_PI : ∀ target ∈ PI.toList, target.val ≠ 0 := by decide

/-- RHOPI that answers has left lane 0, which is no target of the walk (R29, R93). -/
theorem exec_rhopi_lane_zero {a : Byte} {p : List Byte} {s t : State} (h : exec (.rhopi a p) s = .next t) :
    t.lanes[0] = s.lanes[0] := by
  rcases exec_cases (.rhopi a p) s with ⟨_, -, hrefused⟩ | ⟨-, -, hexec⟩
  · cases hrefused.symm.trans h
    rfl
  · cases hexec.symm.trans h
    simp only [State.permuteLanes_lanes, rhoPi]
    exact carryWalk_of_not_target _ _ _ 0 (by decide) fun q hq => zero_not_mem_PI q.1 (List.of_mem_zip hq).1

/-- IOTA that answers has left every lane but lane 0 (R96). -/
theorem exec_iota_other_lanes {a : Byte} {p : List Byte} {s t : State} (h : exec (.iota a p) s = .next t)
    (k : Fin 25) (hk : k.val ≠ 0) : t.lanes[k] = s.lanes[k] := by
  rcases exec_cases (.iota a p) s with ⟨_, -, hrefused⟩ | ⟨-, r, -, -, hexec⟩
  · cases hrefused.symm.trans h
    rfl
  · cases hexec.symm.trans h
    exact (iota_getElem r s.lanes k.val k.isLt).trans (if_neg hk)

/-- INIT has written neither the constants nor the fields of the model's own. -/
theorem initialise_frame (s : State) :
    s.initialise.cfg = s.cfg ∧ s.initialise.host = s.host ∧ s.initialise.freeCount = s.freeCount := by
  rcases initialise_cases s with ⟨-, heq⟩ | ⟨-, heq⟩
  · simp [heq]
  · simp [heq]

/-- No command writes the constants or the host's list, and only SQUEEZE takes free values. -/
theorem exec_keeps_constants {i : Instr} {s t : State} (h : exec i s = .next t) :
    t.cfg = s.cfg ∧ t.host = s.host ∧ (i.opcode ≠ 0x33 → t.freeCount = s.freeCount) := by
  rcases exec_cases i s with ⟨_, -, hrefused⟩ | ⟨-, hp⟩
  · cases hrefused.symm.trans h
    exact ⟨rfl, rfl, fun _ => rfl⟩
  · cases i with
    | theta _ _ | rhopi _ _ | chi _ _ | iota _ _ | round _ _ | permute _ _ =>
      rw [exec_engine_frame rfl h]
      exact ⟨rfl, rfl, fun _ => rfl⟩
    | ldstate _ _ =>
      obtain ⟨_, -, -, hexec⟩ := hp
      cases hexec.symm.trans h
      exact ⟨rfl, rfl, fun _ => rfl⟩
    | rdstate _ _ =>
      rw [exec_rdstate_frame h]
      exact ⟨rfl, rfl, fun _ => rfl⟩
    | init _ _ =>
      obtain ⟨-, hexec⟩ := hp
      cases hexec.symm.trans h
      obtain ⟨hcfg, hhost, hfree⟩ := initialise_frame s
      exact ⟨hcfg, hhost, fun _ => hfree⟩
    | absorb _ _ =>
      obtain ⟨-, -, hexec⟩ := hp
      obtain ⟨A, -, rfl⟩ := absorbBlock_next (hexec.symm.trans h)
      simp
    | final _ _ =>
      obtain ⟨-, hexec⟩ := hp
      obtain ⟨_, rfl⟩ := finalise_next (hexec.symm.trans h)
      exact ⟨rfl, rfl, fun _ => rfl⟩
    | squeeze _ _ =>
      obtain ⟨-, hexec⟩ := hp
      obtain rfl := squeezeDigest_next (hexec.symm.trans h)
      exact ⟨rfl, rfl, fun hne => absurd rfl hne⟩
    | rdstatus _ _ =>
      rw [exec_rdstatus_frame h]
      exact ⟨rfl, rfl, fun _ => rfl⟩

/-- RDSTATE and RDSTATUS write the response only. -/
theorem exec_read_frame {i : Instr} {s t : State} (hi : i.opcode = 0x21 ∨ i.opcode = 0x40) (h : exec i s = .next t) :
    t = { s with response := t.response } := by
  rcases hi with hop | hop
  · rw [eq_of_opcode (command := .rdstate) hop rfl] at h
    exact exec_rdstate_frame h
  · rw [eq_of_opcode (command := .rdstatus) hop rfl] at h
    exact exec_rdstatus_frame h

/-- Settles O43, clause by clause, from the frames of the commands. -/
theorem commandsWriteOnlyTheirOwnState : Obligations.CommandsWriteOnlyTheirOwnState := by
  intro i s t h
  obtain ⟨hcfg, hhost, hfree⟩ := exec_keeps_constants h
  refine ⟨hcfg, hhost, fun hi => ?_, fun hop => ?_, fun hop => ?_, fun hop => ?_, fun hi => ?_, fun hop => ?_, hfree⟩
  · rcases hi with hengine | hread
    · rw [exec_engine_frame hengine h]
      exact ⟨rfl, rfl⟩
    · rw [exec_read_frame hread h]
      exact ⟨rfl, rfl⟩
  · rw [eq_of_opcode (command := .absorb) hop rfl] at h
    exact (exec_absorb_frame h).1
  · rw [eq_of_opcode (command := .rhopi) hop rfl] at h
    exact exec_rhopi_lane_zero h
  · rw [eq_of_opcode (command := .iota) hop rfl] at h
    exact exec_iota_other_lanes h
  · rw [exec_read_frame hi h]
  · rw [eq_of_opcode (command := .absorb) hop rfl] at h
    exact (exec_absorb_frame h).2

/-! ### The invariant -/

/-- A response that is OK or carries no data keeps the invariant of the registers (R75, R161). -/
theorem inv_respond {s : State} (hbs : blockSizeInv s) (hphase : phaseInv s) {code : RespCode} {data : List Byte}
    (hdata : code = .ok ∨ data = []) : Inv (s.respond code data) :=
  ⟨hbs, hphase, responseInv_of_response rfl hdata⟩

/-- A refusal keeps the invariant. -/
theorem inv_refuse {s : State} (h : Inv s) (code : RespCode) : Inv (s.refuse code) := by
  obtain ⟨hbs, hphase, -⟩ := h
  exact inv_respond hbs hphase (.inr rfl)

/-- An OK response with data keeps the invariant. -/
theorem inv_respond_ok {s : State} (h : Inv s) (data : List Byte) : Inv (s.respond .ok data) := by
  obtain ⟨hbs, hphase, -⟩ := h
  exact inv_respond hbs hphase (.inl rfl)

/-- A step of the engine keeps the invariant, which does not speak of the lanes. -/
theorem inv_permuteLanes {s : State} (h : Inv s) (f : Lanes → Lanes) : Inv (s.permuteLanes f) := by
  obtain ⟨hbs, hphase, -⟩ := h
  exact ⟨hbs, hphase, rfl⟩

/-- Reset establishes the invariant, whatever the constants are. -/
theorem inv_applyReset (s : State) : Inv s.applyReset :=
  ⟨.inl rfl, ⟨fun h => by simp at h, fun h => by simp at h⟩, rfl⟩

/-- INIT keeps the invariant. Raising the fault writes no BS, but under an invalid configuration BS was 0 already. -/
theorem inv_initialise {s : State} (h : Inv s) : Inv s.initialise := by
  obtain ⟨hbs, ⟨hsponge, -⟩, -⟩ := h
  rcases initialise_cases s with ⟨hvalid, heq⟩ | ⟨hinvalid, heq⟩
  · rw [heq]
    exact ⟨.inl rfl, ⟨fun _ => hvalid, nofun⟩, rfl⟩
  · have hzero : s.bs = 0 := hbs.resolve_right fun ⟨habsorb, _⟩ => by simp [hsponge (.inl habsorb)] at hinvalid
    rw [heq]
    exact ⟨.inl hzero, ⟨nofun, fun _ => hinvalid⟩, rfl⟩

/-- After the permutation of a full block BS is below BYTE_RATE again (R24, R122). -/
theorem blockSizeInv_permuteIfFull {s : State} (hphase : s.phase = .absorb) (hle : s.bs.toNat ≤ s.cfg.byteRate) :
    blockSizeInv s.permuteIfFull := by
  unfold State.permuteIfFull
  split
  · exact .inl rfl
  · exact .inr ⟨hphase, by omega⟩

/-- ABSORB of a block of at most BYTE_RATE bytes keeps the invariant. -/
theorem inv_absorbBlock {s t : State} {block : List Byte} (h : Inv s) (hphase : s.phase = .absorb)
    (hlen : block.length ≤ s.cfg.byteRate) (hnext : s.absorbBlock block = .next t) : Inv t := by
  obtain ⟨-, hphaseInv, -⟩ := h
  obtain ⟨A, -, rfl⟩ := absorbBlock_next hnext
  refine inv_respond (blockSizeInv_permuteIfFull ?_ ?_) (by simpa [phaseInv] using hphaseInv) (.inl rfl)
  · exact hphase
  · exact (Nat.mod_le _ _).trans hlen

/-- A well-formed command performed in a state of the invariant answers only states of the invariant. -/
theorem inv_of_performed {i : Instr} {s t : State} (h : Inv s) (hwf : i.wellFormed s.cfg = true) (hp : Performed i s)
    (hnext : exec i s = .next t) : Inv t := by
  cases i with
  | theta _ _ | rhopi _ _ | chi _ _ | permute _ _ =>
    obtain ⟨-, hexec⟩ := hp
    cases hexec.symm.trans hnext
    exact inv_permuteLanes h _
  | iota _ _ | round _ _ =>
    obtain ⟨_, -, -, hexec⟩ := hp
    cases hexec.symm.trans hnext
    exact inv_permuteLanes h _
  | rdstate _ _ =>
    obtain ⟨-, hexec⟩ := hp
    cases hexec.symm.trans hnext
    exact inv_respond_ok h _
  | rdstatus _ _ =>
    cases Eq.trans (Eq.symm hp) hnext
    exact inv_respond_ok h _
  | ldstate _ _ =>
    obtain ⟨_, -, -, hexec⟩ := hp
    cases hexec.symm.trans hnext
    exact ⟨.inl rfl, ⟨nofun, nofun⟩, rfl⟩
  | init _ _ =>
    obtain ⟨-, hexec⟩ := hp
    cases hexec.symm.trans hnext
    exact inv_initialise h
  | absorb _ _ =>
    obtain ⟨hphase, -, hexec⟩ := hp
    obtain ⟨hlen, hle⟩ := length_of_wellFormed_absorb hwf
    exact inv_absorbBlock h hphase (hlen.trans_le hle) (hexec.symm.trans hnext)
  | final _ _ =>
    obtain ⟨hphase, hexec⟩ := hp
    obtain ⟨_, rfl⟩ := finalise_next (hexec.symm.trans hnext)
    obtain ⟨-, ⟨hsponge, -⟩, -⟩ := h
    exact ⟨.inl rfl, ⟨fun _ => hsponge (.inl hphase), nofun⟩, rfl⟩
  | squeeze _ _ =>
    obtain ⟨-, hexec⟩ := hp
    obtain rfl := squeezeDigest_next (hexec.symm.trans hnext)
    exact ⟨.inl rfl, ⟨nofun, nofun⟩, rfl⟩

/-- Every command keeps the invariant. -/
theorem inv_of_exec_next {i : Instr} {s t : State} (h : Inv s) (hnext : exec i s = .next t) : Inv t := by
  rcases exec_cases i s with ⟨code, -, hrefused⟩ | ⟨hwf, hp⟩
  · cases hrefused.symm.trans hnext
    exact inv_refuse h code
  · exact inv_of_performed h hwf hp hnext

/-- Settles O8: the machine right after reset is a reset applied to it. -/
theorem resetMeetsTheInvariant : Obligations.ResetMeetsTheInvariant :=
  ⟨inv_applyReset State.reset, fun _ => by decide⟩

/-- Settles O9, by the four things a step can do; the host's list is no part of the invariant. -/
theorem stepKeepsTheInvariant : Obligations.StepKeepsTheInvariant := by
  intro s t hinv hnext
  have htaken (rest : List HostAction) : Inv { s with host := rest } := hinv
  rcases step_cases s with ⟨-, hstep⟩ | ⟨rest, -, hstep⟩ | ⟨_, _, rest, _, -, -, hstep⟩ | ⟨_, _, rest, _, -, -, hstep⟩
  · cases hstep.symm.trans hnext
    exact hinv
  · cases hstep.symm.trans hnext
    exact inv_applyReset _
  · cases hstep.symm.trans hnext
    exact inv_refuse (htaken rest) _
  · exact inv_of_exec_next (htaken rest) (hstep.symm.trans hnext)

end Sys2Proof.Machine
end

section
/-! The state statements, the runs: lanes without value are never observed. Two runs from states that differ only there
are kept side by side, command by command. -/

namespace Sys2Proof.Machine

open Sys2Proof

/-! ### One step, by what the host does next, and one step of a run -/

theorem step_of_host_nil {s : State} (h : s.host = []) : step s = .next s := by
  simp [step, State.takeAction, h]

theorem step_of_reset {s : State} {rest : List HostAction} (h : s.host = .reset :: rest) :
    step s = .next { s with host := rest }.applyReset := by
  simp [step, State.takeAction, h]

theorem step_of_decode_error {s : State} {w : CmdWord} {payload : List Byte} {rest : List HostAction} {e : DecodeError}
    (hhost : s.host = .command w payload :: rest) (hdecode : decode w payload = .error e) :
    step s = .next ({ s with host := rest }.refuse .illegalCmd) := by
  simp [step, State.takeAction, hhost, hdecode]

theorem run_succ_of_next {s t : State} (n : Nat) (h : step s = .next t) : Claims.run (n + 1) s = Claims.run n t := by
  simp [Claims.run, Host.Core.run, core, h]

theorem run_succ_of_fault {s : State} {e : Fault} (n : Nat) (h : step s = .fault e) :
    Claims.run (n + 1) s = .fault e := by
  simp [Claims.run, Host.Core.run, core, h]

theorem run_succ_of_refused {s : State} {e : Refusal} (n : Nat) (h : step s = .refused e) :
    Claims.run (n + 1) s = .refused e := by
  simp [Claims.run, Host.Core.run, core, h]

/-! ### Answers that the host cannot tell apart -/

/-- Two answers are alike: next states that differ at most in lanes without value, or the same stop. -/
def AnswersAlike (p q : Result) : Prop :=
  (∃ t v, p = .next t ∧ q = .next v ∧ SameButValueless t v) ∨
    (∃ r, p = .fault r ∧ q = .fault r) ∨ (∃ r, p = .refused r ∧ q = .refused r)

theorem AnswersAlike.next {t v : State} (h : SameButValueless t v) : AnswersAlike (.next t) (.next v) :=
  .inl ⟨t, v, rfl, rfl, h⟩

theorem AnswersAlike.fault (r : Fault) : AnswersAlike (.fault r) (.fault r) := .inr (.inl ⟨r, rfl, rfl⟩)

theorem AnswersAlike.refused (r : Refusal) : AnswersAlike (.refused r) (.refused r) := .inr (.inr ⟨r, rfl, rfl⟩)

/-- Two states differ at most in lanes without value exactly if one is the other with its counter of free values changed
and, where the lanes hold no value, its lanes. -/
theorem sameButValueless_iff {s u : State} :
    SameButValueless s u ↔
      ∃ A n, u = { s with lanes := A, freeCount := n } ∧ (lanesValueless s ∨ s.lanes = A) := by
  constructor
  · rintro ⟨hbs, hphase, hcfg, hresponse, hhost, hlanes⟩
    refine ⟨u.lanes, u.freeCount, ?_, hlanes⟩
    cases u
    simp_all
  · rintro ⟨A, n, rfl, hlanes⟩
    exact ⟨rfl, rfl, rfl, rfl, rfl, hlanes⟩

/-- Where the lanes hold a value such states differ in the counter of free values only. -/
theorem eq_of_sameButValueless_of_valued {s u : State} (h : SameButValueless s u) (hvalued : ¬lanesValueless s) :
    ∃ n, u = { s with freeCount := n } := by
  obtain ⟨_, n, rfl, hlanes⟩ := sameButValueless_iff.mp h
  obtain rfl := hlanes.resolve_left hvalued
  exact ⟨n, rfl⟩

/-- The counter of free values makes no difference. -/
theorem sameButValueless_freeCount (s : State) (n : Nat) : SameButValueless s { s with freeCount := n } :=
  ⟨rfl, rfl, rfl, rfl, rfl, .inr rfl⟩

/-- The same response to both keeps them alike. -/
theorem sameButValueless_respond {s u : State} (h : SameButValueless s u) (code : RespCode) (data : List Byte) :
    SameButValueless (s.respond code data) (u.respond code data) := by
  obtain ⟨A, n, rfl, hlanes⟩ := sameButValueless_iff.mp h
  exact sameButValueless_iff.mpr ⟨A, n, rfl, hlanes⟩

/-- The checks before a command refuse both or perform both, so it is enough that the performances are alike. -/
theorem accept_alike {α : Type} {operand : Option α} {legal legal' : Bool} {perform perform' : α → Result} {s u : State}
    (h : SameButValueless s u) (hlegal : legal = legal')
    (hperform : ∀ a, s.phase ≠ .fault → legal = true → AnswersAlike (perform a) (perform' a)) :
    AnswersAlike (accept operand legal perform s) (accept operand legal' perform' u) := by
  have ⟨_, hphase, _⟩ := h
  subst hlegal
  have hrefuse (code : RespCode) : AnswersAlike (.next (s.refuse code)) (.next (u.refuse code)) :=
    .next (sameButValueless_respond h code [])
  cases operand with
  | none => exact hrefuse .badArg
  | some a =>
    by_cases hfault : s.phase = .fault
    · rw [accept_faulted a legal perform hfault, accept_faulted a legal perform' (hphase ▸ hfault)]
      exact hrefuse .faulted
    · have hfault' : u.phase ≠ .fault := hphase ▸ hfault
      cases legal with
      | false =>
        rw [accept_badPhase a perform hfault, accept_badPhase a perform' hfault']
        exact hrefuse .badPhase
      | true =>
        rw [accept_performs a perform hfault, accept_performs a perform' hfault']
        exact hperform a hfault rfl

/-- A command that is legal only where the lanes hold a value need only be alike when the counter of free values differs. -/
theorem accept_alike_of_valued {α : Type} {operand : Option α} {legal : State → Bool} {perform : State → α → Result}
    {s u : State} (h : SameButValueless s u) (hlegal : legal s = legal u)
    (hvalued : legal s = true → ¬lanesValueless s)
    (hperform : ∀ a n, AnswersAlike (perform s a) (perform { s with freeCount := n } a)) :
    AnswersAlike (accept operand (legal s) (perform s) s) (accept operand (legal u) (perform u) u) :=
  accept_alike h hlegal fun a _ hs => by
    obtain ⟨n, rfl⟩ := eq_of_sameButValueless_of_valued h (hvalued hs)
    exact hperform a n

/-! ### The operations -/

/-- Whether a block was full, and the permutation, do not depend on the counter of free values. -/
theorem permuteIfFull_sameButValueless (s : State) (n : Nat) :
    SameButValueless s.permuteIfFull { s with freeCount := n }.permuteIfFull := by
  unfold State.permuteIfFull
  split
  · exact sameButValueless_freeCount _ n
  · exact sameButValueless_freeCount s n

/-- ABSORB XORs the same block into the same lanes, or leaves the buffer in both. -/
theorem absorbBlock_alike (s : State) (n : Nat) (block : List Byte) :
    AnswersAlike (s.absorbBlock block) ({ s with freeCount := n }.absorbBlock block) := by
  unfold State.absorbBlock
  cases xorFrom s.lanes 0 block with
  | none => exact .fault _
  | some A =>
    exact .next (sameButValueless_respond
      (permuteIfFull_sameButValueless { s with lanes := A, bs := BitVec.ofNat 8 block.length } n) .ok [])

/-- FINAL pads and permutes the same lanes, or stops for the same reason. -/
theorem finalise_alike (s : State) (n : Nat) : AnswersAlike s.finalise { s with freeCount := n }.finalise := by
  unfold State.finalise
  split
  · exact .refused _
  · cases padLanes s.cfg s.bs.toNat s.lanes with
    | none => exact .fault _
    | some A => exact .next (sameButValueless_freeCount _ _)

/-- SQUEEZE returns the same digest of the lanes; the free values it then puts there are in phase IDLE. -/
theorem squeezeDigest_alike (s : State) (n : Nat) :
    AnswersAlike s.squeezeDigest { s with freeCount := n }.squeezeDigest := by
  unfold State.squeezeDigest
  split
  · exact .next ⟨rfl, rfl, rfl, rfl, rfl, .inl (.inl rfl)⟩
  · exact .refused _

/-- INIT writes every lane, or it enters phase FAULT, where lanes hold no value. -/
theorem initialise_sameButValueless {s u : State} (h : SameButValueless s u) :
    SameButValueless s.initialise u.initialise := by
  obtain ⟨A, n, rfl, -⟩ := sameButValueless_iff.mp h
  unfold State.initialise
  split
  · exact sameButValueless_freeCount _ _
  · exact ⟨rfl, rfl, rfl, rfl, rfl, .inl (.inr rfl)⟩

/-- Reset writes every lane. -/
theorem applyReset_sameButValueless {s u : State} (h : SameButValueless s u) :
    SameButValueless s.applyReset u.applyReset := by
  obtain ⟨A, n, rfl, -⟩ := sameButValueless_iff.mp h
  exact sameButValueless_freeCount _ _

theorem statusBytes_eq_of_sameButValueless {s u : State} (h : SameButValueless s u) : statusBytes s = statusBytes u := by
  obtain ⟨A, n, rfl, -⟩ := sameButValueless_iff.mp h
  rfl

/-- In a phase other than IDLE and FAULT the lanes hold a value (R35). -/
theorem not_lanesValueless_of_phase {s : State} {p : Phase} (hp : p ≠ .idle ∧ p ≠ .fault) (h : (s.phase == p) = true) :
    ¬lanesValueless s := by
  obtain rfl := eq_of_beq h
  simp [lanesValueless, hp]

/-- The engine's commands work in phase RAW only. -/
theorem rawStep_alike {α : Type} (operand : Option α) (f : α → Lanes → Lanes) {s u : State}
    (h : SameButValueless s u) : AnswersAlike (rawStep operand f s) (rawStep operand f u) := by
  have ⟨_, hphase, _⟩ := h
  exact accept_alike_of_valued (legal := (·.phase == .raw)) (perform := fun s a => .next (s.permuteLanes (f a)))
    h (by rw [hphase]) (not_lanesValueless_of_phase (by decide)) fun a n => .next (sameButValueless_freeCount _ _)

/-- No command tells such states apart: those that read lanes are legal only where the lanes hold a value. -/
theorem exec_alike (i : Instr) {s u : State} (h : SameButValueless s u) : AnswersAlike (exec i s) (exec i u) := by
  have ⟨hbs, hphase, hcfg, _⟩ := h
  cases i with
  | theta _ _ | rhopi _ _ | chi _ _ | iota _ _ | round _ _ | permute _ _ => exact rawStep_alike _ _ h
  | ldstate _ _ =>
    refine accept_alike h rfl fun B _ _ => .next ?_
    obtain ⟨A, n, rfl, -⟩ := sameButValueless_iff.mp h
    exact sameButValueless_freeCount _ _
  | rdstate _ _ =>
    exact accept_alike_of_valued (legal := (·.phase == .raw))
      (perform := fun s _ => .next (s.respond .ok (lanesToBytes s.lanes)))
      h (by rw [hphase]) (not_lanesValueless_of_phase (by decide))
      fun _ n => .next (sameButValueless_respond (sameButValueless_freeCount s n) _ _)
  | init _ _ => exact accept_alike h rfl fun _ _ _ => .next (initialise_sameButValueless h)
  | absorb a p =>
    have hlegal (hs : (s.phase == .absorb && s.bs == 0) = true) : ¬lanesValueless s :=
      not_lanesValueless_of_phase (by decide) (Bool.and_eq_true_iff.mp hs).1
    simp only [exec, execAbsorb, ← hcfg]
    exact accept_alike_of_valued (legal := fun s => s.phase == .absorb && s.bs == 0) (perform := State.absorbBlock)
      h (by rw [hphase, hbs]) hlegal fun block n => absorbBlock_alike s n block
  | final _ _ =>
    exact accept_alike_of_valued (legal := (·.phase == .absorb)) (perform := fun s _ => s.finalise)
      h (by rw [hphase]) (not_lanesValueless_of_phase (by decide)) fun _ n => finalise_alike s n
  | squeeze _ _ =>
    exact accept_alike_of_valued (legal := (·.phase == .ready)) (perform := fun s _ => s.squeezeDigest)
      h (by rw [hphase]) (not_lanesValueless_of_phase (by decide)) fun _ n => squeezeDigest_alike s n
  | rdstatus a p =>
    simp only [exec, execRdstatus, statusBytes_eq_of_sameButValueless h]
    cases noOperand a p with
    | none => exact .next (sameButValueless_respond h _ _)
    | some _ => exact .next (sameButValueless_respond h _ _)

/-! ### The step and the run -/

/-- Neither does a step: both hosts do the same next. -/
theorem step_alike {s u : State} (h : SameButValueless s u) : AnswersAlike (step s) (step u) := by
  have ⟨hbs, hphase, hcfg, hresponse, hhost, hlanes⟩ := h
  have htaken (rest : List HostAction) : SameButValueless { s with host := rest } { u with host := rest } :=
    ⟨hbs, hphase, hcfg, hresponse, rfl, hlanes⟩
  cases hs : s.host with
  | nil =>
    rw [step_of_host_nil hs, step_of_host_nil (hhost.symm.trans hs)]
    exact .next h
  | cons action rest =>
    have hu := hhost.symm.trans hs
    cases action with
    | reset =>
      rw [step_of_reset hs, step_of_reset hu]
      exact .next (applyReset_sameButValueless (htaken rest))
    | command w payload =>
      cases hdecode : decode w payload with
      | error e =>
        rw [step_of_decode_error hs hdecode, step_of_decode_error hu hdecode]
        exact .next (sameButValueless_respond (htaken rest) _ _)
      | ok i =>
        rw [step_eq_exec_of_decode hs hdecode, step_eq_exec_of_decode hu hdecode]
        exact exec_alike i (htaken rest)

/-- Neither does a run of any length. -/
theorem run_alike (n : Nat) {s u : State} (h : SameButValueless s u) :
    AnswersAlike (Claims.run n s) (Claims.run n u) := by
  induction n generalizing s u with
  | zero => exact .next h
  | succ n ih =>
    rcases step_alike h with ⟨t, v, hs, hu, halike⟩ | ⟨e, hs, hu⟩ | ⟨e, hs, hu⟩
    · rw [run_succ_of_next n hs, run_succ_of_next n hu]
      exact ih halike
    · rw [run_succ_of_fault n hs, run_succ_of_fault n hu]
      exact .fault e
    · rw [run_succ_of_refused n hs, run_succ_of_refused n hu]
      exact .refused e

/-- Settles O49, by induction on the length of the run. -/
theorem valuelessLanesAreNeverObserved : Obligations.ValuelessLanesAreNeverObserved :=
  fun n _ _ h => run_alike n h

end Sys2Proof.Machine
end

section
/-! The memory statements (family 20_memory.md): the two conversions, the commands that may be repeated, and what of the
buffer a sponge computation shows. -/

namespace Sys2Proof.Machine

open Sys2Proof

/-! ### The conversions -/

/-- `lanes_to_bytes` lists the byte view (R53). -/
theorem lanesToBytes_eq_toList_ofFn (A : Lanes) : lanesToBytes A = (Vector.ofFn (byteAt A)).toList := by
  rw [lanesToBytes, Vector.toList_ofFn, List.ofFn_eq_map]

/-- The byte view of `bytes_to_lanes` is the bytes (R54). -/
theorem ofFn_byteAt_bytesToLanes (B : Vector Byte 200) : Vector.ofFn (byteAt (bytesToLanes B)) = B :=
  Vector.ext fun k hk => by rw [Vector.getElem_ofFn, byteAt_bytesToLanes]

/-- Bytes that begin 00 to 07 have the value of their address there. -/
theorem getElem_of_take_eq {B : Vector Byte 200} (h : B.toList.take 8 = [0x00, 0x01, 0x02, 0x03, 0x04, 0x05, 0x06, 0x07])
    {k : Nat} (hk : k < 8) : B[k] = BitVec.ofNat 8 k := by
  have hrange : B.toList.take 8 = (List.range 8).map (BitVec.ofNat 8) := h
  have hget := congrArg (·[k]?) hrange
  simpa [hk, show k < 200 by omega] using hget

/-- Settles O30: both directions go through the byte view; the example is a computation on its first eight bytes. -/
theorem conversionsAreInverse : Obligations.ConversionsAreInverse := by
  refine ⟨fun A B h => ?_, fun B => ?_, fun B h => ?_⟩
  · rw [lanesToBytes_eq_toList_ofFn, Vector.toList_inj] at h
    rw [h, bytesToLanes_ofFn_byteAt]
  · rw [lanesToBytes_eq_toList_ofFn, ofFn_byteAt_bytesToLanes]
  · simp [lane_eq_bytes, byteAt_bytesToLanes, getElem_of_take_eq h]

/-! ### When a command is well formed -/

/-- A well-formed LDSTATE has ARG 0 and 200 bytes (R73, R74). -/
theorem wellFormed_ldstate_iff {c : Config} {a : Byte} {p : List Byte} :
    (Instr.ldstate a p).wellFormed c = true ↔ a = 0 ∧ p.length = 200 := by
  simp [Instr.wellFormed, Instr.argLegal, Instr.requiredPayload, Instr.payload]

/-- A well-formed INIT has ARG 0 and no payload (R73, R74). -/
theorem wellFormed_init_iff {c : Config} {a : Byte} {p : List Byte} :
    (Instr.init a p).wellFormed c = true ↔ a = 0 ∧ p = [] := by
  simp [Instr.wellFormed, Instr.argLegal, Instr.requiredPayload, Instr.payload]

/-- A well-formed RDSTATUS has ARG 0 and no payload (R73, R74). -/
theorem wellFormed_rdstatus_iff {c : Config} {a : Byte} {p : List Byte} :
    (Instr.rdstatus a p).wellFormed c = true ↔ a = 0 ∧ p = [] := by
  simp [Instr.wellFormed, Instr.argLegal, Instr.requiredPayload, Instr.payload]

/-! ### What a command that answers has responded -/

/-- The data of a command that is performed (R75): the buffer, the digest, STATUS, or none. -/
def performedData (i : Instr) (s : State) : List Byte :=
  match i with
  | .rdstate _ _ => lanesToBytes s.lanes
  | .squeeze _ _ => memRead s.lanes 0 s.cfg.outlen.toNat
  | .rdstatus _ _ => statusBytes s
  | .theta _ _ | .rhopi _ _ | .chi _ _ | .iota _ _ | .round _ _ | .permute _ _ | .ldstate _ _ | .init _ _
  | .absorb _ _ | .final _ _ => []

/-- INIT responds without data, by whether the configuration is valid (R121). -/
theorem initialise_response (s : State) :
    s.initialise.response = some ⟨if configValid s.cfg then .ok else .configFault, []⟩ := by
  rcases initialise_cases s with ⟨hvalid, heq⟩ | ⟨hinvalid, heq⟩
  · rw [heq, if_pos hvalid]
  · rw [heq, hinvalid]
    rfl

/-- ABSORB that answers responds OK without data (R122). -/
theorem absorbBlock_response {s t : State} {block : List Byte} (h : s.absorbBlock block = .next t) :
    t.response = some ⟨.ok, []⟩ := by
  obtain ⟨_, -, rfl⟩ := absorbBlock_next h
  rfl

/-- FINAL that answers responds OK without data (R123). -/
theorem finalise_response {s t : State} (h : s.finalise = .next t) : t.response = some ⟨.ok, []⟩ := by
  obtain ⟨_, rfl⟩ := finalise_next h
  rfl

/-- SQUEEZE that answers responds OK with the first OUTLEN bytes, and OUTLEN was admissible (R124). -/
theorem squeezeDigest_response {s t : State} (h : s.squeezeDigest = .next t) :
    outlenAdmissible s.cfg = true ∧ t.response = some ⟨.ok, memRead s.lanes 0 s.cfg.outlen.toNat⟩ := by
  rcases squeezeDigest_cases s with ⟨-, hstop⟩ | ⟨hout, hnext⟩
  · simp [hstop] at h
  · cases hnext.symm.trans h
    exact ⟨hout, rfl⟩

/-- A command that is performed and answers has responded with its data. -/
theorem response_of_performed {i : Instr} {s t : State} (hp : Performed i s) (h : exec i s = .next t) :
    ∃ code, t.response = some ⟨code, performedData i s⟩ := by
  cases i with
  | theta _ _ | rhopi _ _ | chi _ _ | permute _ _ | rdstate _ _ =>
    obtain ⟨-, hexec⟩ := hp
    cases hexec.symm.trans h
    exact ⟨_, rfl⟩
  | iota _ _ | round _ _ | ldstate _ _ =>
    obtain ⟨_, -, -, hexec⟩ := hp
    cases hexec.symm.trans h
    exact ⟨_, rfl⟩
  | init _ _ =>
    obtain ⟨-, hexec⟩ := hp
    cases hexec.symm.trans h
    exact ⟨_, initialise_response s⟩
  | absorb _ _ =>
    obtain ⟨-, -, hexec⟩ := hp
    exact ⟨_, absorbBlock_response (hexec.symm.trans h)⟩
  | final _ _ =>
    obtain ⟨-, hexec⟩ := hp
    exact ⟨_, finalise_response (hexec.symm.trans h)⟩
  | squeeze _ _ =>
    obtain ⟨-, hexec⟩ := hp
    exact ⟨_, (squeezeDigest_response (hexec.symm.trans h)).2⟩
  | rdstatus _ _ =>
    cases Eq.trans (Eq.symm hp) h
    exact ⟨_, rfl⟩

/-- A command that responds OK was performed, not refused. -/
theorem performed_of_codeOf_ok {i : Instr} {s : State} (h : codeOf (exec i s) = some .ok) :
    i.wellFormed s.cfg = true ∧ Performed i s := by
  rcases exec_cases i s with ⟨_, rfl | rfl | rfl, hrefused⟩ | hperformed
  · simp [hrefused, codeOf] at h
  · simp [hrefused, codeOf] at h
  · simp [hrefused, codeOf] at h
  · exact hperformed

/-! ### Commands that may be repeated -/

/-- The permutation of a full block does not read the response. -/
theorem respond_permuteIfFull (s : State) (r : Option Response) (code : RespCode) (data : List Byte) :
    { s with response := r }.permuteIfFull.respond code data = s.permuteIfFull.respond code data := by
  unfold State.permuteIfFull
  split <;> rfl

/-- ABSORB does not read the response. -/
theorem absorbBlock_of_response (s : State) (r : Option Response) :
    { s with response := r }.absorbBlock = s.absorbBlock := by
  funext block
  unfold State.absorbBlock
  cases xorFrom s.lanes 0 block with
  | none => rfl
  | some A => exact congrArg _ (respond_permuteIfFull { s with lanes := A, bs := BitVec.ofNat 8 block.length } r _ _)

/-- No command reads the response the state holds. -/
theorem exec_of_response (i : Instr) (s : State) (r : Option Response) :
    exec i { s with response := r } = exec i s := by
  cases i with
  | theta _ _ | rhopi _ _ | chi _ _ | iota _ _ | round _ _ | permute _ _ | ldstate _ _ | rdstate _ _ | init _ _
  | final _ _ | squeeze _ _ | rdstatus _ _ => rfl
  | absorb a p => simp only [exec, execAbsorb, absorbBlock_of_response, accept, State.refuse, State.respond]

/-- A command that answered by writing the response only answers the same again. -/
theorem exec_repeats_of_frame {i : Instr} {s t : State} (hframe : t = { s with response := t.response })
    (h : exec i s = .next t) : exec i t = .next t :=
  calc exec i t = exec i { s with response := t.response } := congrArg (exec i) hframe
    _ = exec i s := exec_of_response i s t.response
    _ = .next t := h

/-- A well-formed INIT outside FAULT is performed (R121). -/
theorem exec_init_of_ne_fault {s : State} (h : s.phase ≠ .fault) : exec (.init 0 []) s = .next s.initialise :=
  accept_performs () (fun _ => .next s.initialise) h

/-- A well-formed LDSTATE outside FAULT is performed (R110). -/
theorem exec_ldstate_of_ne_fault (B : Vector Byte 200) {s : State} (h : s.phase ≠ .fault) :
    exec (.ldstate 0 B.toList) s =
      .next ({ s with lanes := bytesToLanes B, bs := 0, phase := .raw }.respond .ok []) := by
  simp only [exec, execLdstate, stateOperand_eq_some.mpr ⟨rfl, rfl⟩]
  exact accept_performs B _ h

/-- INIT answered OK has zeroed lanes and BS and entered ABSORB; doing so again changes nothing (R59). -/
theorem exec_init_idem {a : Byte} {p : List Byte} {s t : State} (h : exec (.init a p) s = .next t)
    (hok : codeOf (exec (.init a p) s) = some .ok) : exec (.init a p) t = .next t := by
  obtain ⟨hwf, -, hexec⟩ := performed_of_codeOf_ok hok
  obtain ⟨rfl, rfl⟩ := wellFormed_init_iff.mp hwf
  cases hexec.symm.trans h
  rcases initialise_cases s with ⟨hvalid, heq⟩ | ⟨-, heq⟩
  · rw [heq, exec_init_of_ne_fault (by simp)]
    simp [State.initialise, hvalid, State.respond]
  · rw [hexec, heq] at hok
    nomatch hok

/-- LDSTATE answered OK has written its payload, BS and PHASE; doing so again changes nothing (R59). -/
theorem exec_ldstate_idem {a : Byte} {p : List Byte} {s t : State} (h : exec (.ldstate a p) s = .next t)
    (hok : codeOf (exec (.ldstate a p) s) = some .ok) : exec (.ldstate a p) t = .next t := by
  obtain ⟨hwf, B, rfl, -, hexec⟩ := performed_of_codeOf_ok hok
  obtain ⟨rfl, -⟩ := wellFormed_ldstate_iff.mp hwf
  cases hexec.symm.trans h
  exact exec_ldstate_of_ne_fault B (by simp)

/-- Settles O46: the reads write the response only, which no command reads; INIT and LDSTATE are idempotent. -/
theorem repeatableCommandsRepeat : Obligations.RepeatableCommandsRepeat := by
  intro i s t hop h hok
  rcases hop with hread | hread | hop | hop
  · exact exec_repeats_of_frame (exec_read_frame (.inl hread) h) h
  · exact exec_repeats_of_frame (exec_read_frame (.inr hread) h) h
  · rw [eq_of_opcode (command := .init) hop rfl] at h hok ⊢
    exact exec_init_idem h hok
  · rw [eq_of_opcode (command := .ldstate) hop rfl] at h hok ⊢
    exact exec_ldstate_idem h hok

/-! ### What a sponge computation shows -/

/-- A block read from byte 0 depends on the bytes it reads only. -/
theorem memRead_congr {A B : Lanes} {n : Nat} (h : ∀ k : Fin 200, k.val < n → byteAt A k = byteAt B k) :
    memRead A 0 n = memRead B 0 n := by
  apply List.ext_getElem
  · simp [memRead]
  · intro k hA hB
    obtain ⟨hkn, -⟩ : k < n ∧ k < 200 := by simpa [memRead] using hA
    simpa [memRead] using h ⟨k, _⟩ hkn

/-- The digest fits the rate window (R8). -/
theorem outlen_le_byteRate {c : Config} (h : outlenAdmissible c = true) : c.outlen.toNat ≤ c.byteRate := by
  obtain ⟨-, hle⟩ := Bool.and_eq_true_iff.mp h
  exact of_decide_eq_true hle

/-- Two answers show the host the same: where both are next states, they hold the same response. -/
def SameResponse (p q : Result) : Prop := ∀ t v, p = .next t → q = .next v → t.response = v.response

theorem SameResponse.next {t v : State} {r : Option Response} (ht : t.response = r) (hv : v.response = r) :
    SameResponse (.next t) (.next v) := by
  rintro _ _ ⟨⟩ ⟨⟩
  exact ht.trans hv.symm

/-- The checks before a command do not read the lanes, so it is enough that the performances respond the same. -/
theorem accept_sameResponse {α : Type} (operand : Option α) {legal : Bool} {perform perform' : α → Result} (s : State)
    (A : Lanes) (h : ∀ a, legal = true → SameResponse (perform a) (perform' a)) :
    SameResponse (accept operand legal perform s) (accept operand legal perform' { s with lanes := A }) := by
  cases operand with
  | none => exact .next rfl rfl
  | some a =>
    unfold accept
    dsimp only
    split_ifs with hfault hlegal
    · exact .next rfl rfl
    · exact h a hlegal
    · exact .next rfl rfl

/-- In phases ABSORB and READY no response depends on the bytes past the rate window: RDSTATE is refused, SQUEEZE reads
inside the window, and no other command returns bytes of the buffer. -/
theorem exec_sameResponse (i : Instr) {s : State} {A : Lanes} (hphase : s.phase = .absorb ∨ s.phase = .ready)
    (hwindow : ∀ k : Fin 200, k.val < s.cfg.byteRate → byteAt A k = byteAt s.lanes k) :
    SameResponse (exec i s) (exec i { s with lanes := A }) := by
  cases i with
  | theta _ _ | rhopi _ _ | chi _ _ | iota _ _ | round _ _ | permute _ _ | ldstate _ _ =>
    exact accept_sameResponse _ s A fun _ _ => .next (r := some ⟨.ok, []⟩) rfl rfl
  | rdstate _ _ =>
    refine accept_sameResponse _ s A fun _ hraw => ?_
    simp [eq_of_beq hraw] at hphase
  | init _ _ =>
    exact accept_sameResponse _ s A fun _ _ => .next (initialise_response s) (initialise_response { s with lanes := A })
  | absorb _ _ =>
    exact accept_sameResponse _ s A fun _ _ _ _ ht hv => (absorbBlock_response ht).trans (absorbBlock_response hv).symm
  | final _ _ =>
    exact accept_sameResponse _ s A fun _ _ _ _ ht hv => (finalise_response ht).trans (finalise_response hv).symm
  | squeeze _ _ =>
    refine accept_sameResponse _ s A fun _ _ t v ht hv => ?_
    obtain ⟨hout, hs⟩ := squeezeDigest_response ht
    obtain ⟨-, hu⟩ := squeezeDigest_response hv
    have hdigest := memRead_congr fun k hk => hwindow k (hk.trans_le (outlen_le_byteRate hout))
    rw [hs, hu, hdigest]
  | rdstatus a p =>
    simp only [exec, execRdstatus]
    cases noOperand a p with
    | none => exact .next rfl rfl
    | some _ => exact .next rfl rfl

/-- In phases ABSORB and READY a command that returns data is RDSTATUS, or SQUEEZE of a digest inside the rate window. -/
theorem exec_data_of_sponge_phase {i : Instr} {s t : State} {r : Response}
    (hphase : s.phase = .absorb ∨ s.phase = .ready) (h : exec i s = .next t) (hr : t.response = some r)
    (hdata : r.data ≠ []) :
    i = .rdstatus 0 [] ∨ (i = .squeeze 0 [] ∧ s.phase = .ready ∧ r.data.length ≤ s.cfg.byteRate) := by
  rcases exec_cases i s with ⟨_, -, hrefused⟩ | ⟨hwf, hp⟩
  · cases hrefused.symm.trans h
    cases hr
    exact absurd rfl hdata
  · obtain ⟨_, hresponse⟩ := response_of_performed hp h
    cases hresponse.symm.trans hr
    cases i with
    | theta _ _ | rhopi _ _ | chi _ _ | iota _ _ | round _ _ | permute _ _ | ldstate _ _ | init _ _ | absorb _ _
    | final _ _ => exact absurd rfl hdata
    | rdstate _ _ =>
      obtain ⟨hraw, -⟩ := hp
      simp [hraw] at hphase
    | squeeze _ _ =>
      obtain ⟨rfl, rfl⟩ := wellFormed_squeeze_iff.mp hwf
      obtain ⟨hready, hexec⟩ := hp
      obtain ⟨hout, -⟩ := squeezeDigest_response (hexec.symm.trans h)
      exact .inr ⟨rfl, hready, (List.length_take_le _ _).trans (outlen_le_byteRate hout)⟩
    | rdstatus _ _ =>
      obtain ⟨rfl, rfl⟩ := wellFormed_rdstatus_iff.mp hwf
      exact .inl rfl

/-- Settles O48: what is returned in a sponge computation, and that it is read inside the rate window. -/
theorem capacityIsNotObservable : Obligations.CapacityIsNotObservable := by
  refine ⟨fun i s t r hphase h hr hdata => exec_data_of_sponge_phase hphase h hr hdata, ?_⟩
  intro i s u t v hphase hu hwindow ht hv
  rw [hu] at hv
  exact exec_sameResponse i hphase hwindow t v ht hv

end Sys2Proof.Machine
end

section
/-! The encoding statements (family 30_encoding.md): the decoder and what is sent for a command, the illegal opcodes, the
ill-formed commands, the length of a response, and that no run stops. -/

namespace Sys2Proof.Machine

open Sys2Proof

/-! ### The opcode map -/

/-- Each entry of the opcode map makes commands of its opcode, with the ARG and the payload it is given (R70 to R72). -/
theorem fields_of_mem_opcodeMap {entry : Byte × (Byte → List Byte → Instr)} (h : entry ∈ opcodeMap) (a : Byte)
    (p : List Byte) :
    (entry.2 a p).opcode = entry.1 ∧ (entry.2 a p).arg = a ∧ (entry.2 a p).payload = p := by
  simp only [opcodeMap, List.mem_cons, List.not_mem_nil, or_false] at h
  rcases h with rfl | rfl | rfl | rfl | rfl | rfl | rfl | rfl | rfl | rfl | rfl | rfl | rfl <;> exact ⟨rfl, rfl, rfl⟩

/-- What the opcode map finds is an entry of it. -/
theorem mem_opcodeMap_of_lookup {op : Byte} {command : Byte → List Byte → Instr}
    (h : opcodeMap.lookup op = some command) : (op, command) ∈ opcodeMap := by
  obtain ⟨_, _, hsplit, -⟩ := List.lookup_eq_some_iff.mp h
  simp [hsplit]

/-- The opcode map has no entry exactly for the opcodes outside the table (R72, R77). -/
theorem lookup_opcodeMap_eq_none_iff {op : Byte} : opcodeMap.lookup op = none ↔ op ∉ Claims.legalOpcodes := by
  have hlegal : Claims.legalOpcodes = opcodeMap.map Prod.fst := rfl
  rw [List.lookup_eq_none_iff, hlegal, List.mem_map]
  simp only [bne_iff_ne, ne_eq, not_exists, not_and, eq_comm (a := op)]

/-! ### The decoder -/

/-- What is sent for a command decodes to it (R70 to R73). -/
theorem decodeBytes_encodeBytes (i : Instr) : decodeBytes (encodeBytes i) = .ok i := by
  cases i with
  | theta a p => exact Laws.RoundTrip.theta a p
  | rhopi a p => exact Laws.RoundTrip.rhopi a p
  | chi a p => exact Laws.RoundTrip.chi a p
  | iota a p => exact Laws.RoundTrip.iota a p
  | round a p => exact Laws.RoundTrip.round a p
  | permute a p => exact Laws.RoundTrip.permute a p
  | ldstate a p => exact Laws.RoundTrip.ldstate a p
  | rdstate a p => exact Laws.RoundTrip.rdstate a p
  | init a p => exact Laws.RoundTrip.init a p
  | absorb a p => exact Laws.RoundTrip.absorb a p
  | final a p => exact Laws.RoundTrip.final a p
  | squeeze a p => exact Laws.RoundTrip.squeeze a p
  | rdstatus a p => exact Laws.RoundTrip.rdstatus a p

/-- A decoded command has the opcode and the ARG of its word, and its payload. -/
theorem fields_of_decode {w : CmdWord} {p : List Byte} {i : Instr} (h : decode w p = .ok i) :
    i.opcode = opField w ∧ i.arg = argField w ∧ i.payload = p := by
  unfold decode at h
  cases hlookup : opcodeMap.lookup (opField w) with
  | none => simp [hlookup] at h
  | some command =>
    simp only [hlookup, Except.ok.injEq] at h
    subst h
    exact fields_of_mem_opcodeMap (mem_opcodeMap_of_lookup hlookup) _ _

/-- Bytes that decode to a command are what is sent for it (R80). -/
theorem encodeBytes_of_decodeBytes {bytes : List Byte} {i : Instr} (h : decodeBytes bytes = .ok i) :
    encodeBytes i = bytes := by
  match bytes, h with
  | op :: arg :: payload, h =>
    obtain ⟨hop, harg, hpayload⟩ := fields_of_decode h
    rw [encodeBytes, hop, harg, hpayload, Laws.opField_append, Laws.argField_append]

/-- A word with an opcode outside the table is no command (R77). -/
theorem decode_of_illegal {w : CmdWord} (h : opField w ∉ Claims.legalOpcodes) (p : List Byte) :
    decode w p = .error .illegalCmd := by
  simp [decode, lookup_opcodeMap_eq_none_iff.mpr h]

/-- The opcodes outside the table are those of the five ranges of R77. -/
theorem not_mem_legalOpcodes_iff {op : Byte} : op ∉ Claims.legalOpcodes ↔
    (op.toNat ≤ 0x0F ∨ (0x16 ≤ op.toNat ∧ op.toNat ≤ 0x1F) ∨ (0x22 ≤ op.toNat ∧ op.toNat ≤ 0x2F) ∨
      (0x34 ≤ op.toNat ∧ op.toNat ≤ 0x3F) ∨ 0x41 ≤ op.toNat) := by
  simp only [Claims.legalOpcodes, List.mem_cons, List.not_mem_nil, or_false]
  bv_omega

/-! ### Ill-formed commands -/

/-- A command whose operand cannot be read is refused with BAD_ARG before anything else is looked at (R163). -/
theorem accept_of_operand_eq_none {α : Type} {operand : Option α} (h : operand = none) (legal : Bool)
    (perform : α → Result) (s : State) : accept operand legal perform s = Claims.answers s .badArg := by
  rw [h]
  rfl

/-- An ill-formed command without operand has none to read (R73, R74). -/
theorem noOperand_of_illFormed {a : Byte} {p : List Byte} (h : (a == 0 && p.length == 0) = false) :
    noOperand a p = none := by
  apply noOperand_eq_none
  rintro ⟨rfl, rfl⟩
  simp at h

/-- An ill-formed command of a round has no round number to read (R73, R74). -/
theorem roundOperand_of_illFormed {a : Byte} {p : List Byte} (h : (decide (a.toNat ≤ 23) && p.length == 0) = false) :
    roundOperand a p = none := by
  rw [Option.eq_none_iff_forall_ne_some]
  intro r hsome
  obtain ⟨hr, rfl⟩ := roundOperand_eq_some.mp hsome
  have := r.isLt
  simp at h
  omega

/-- An ill-formed LDSTATE has no state to read (R73, R74). -/
theorem stateOperand_of_illFormed {c : Config} {a : Byte} {p : List Byte}
    (h : (Instr.ldstate a p).wellFormed c = false) : stateOperand a p = none := by
  rw [Option.eq_none_iff_forall_ne_some]
  intro B hsome
  obtain ⟨rfl, rfl⟩ := stateOperand_eq_some.mp hsome
  simp [wellFormed_ldstate_iff.mpr] at h

/-- An ill-formed ABSORB has no block to read (R73, R74). -/
theorem blockOperand_of_illFormed {c : Config} {a : Byte} {p : List Byte}
    (h : (Instr.absorb a p).wellFormed c = false) : blockOperand c a p = none := by
  rw [Option.eq_none_iff_forall_ne_some]
  intro block hsome
  obtain ⟨⟨hpos, hle, hlen⟩, -⟩ := blockOperand_eq_some.mp hsome
  simp [Instr.wellFormed, Instr.argLegal, Instr.requiredPayload, Instr.payload, hpos, hle, hlen] at h

/-- An ill-formed command is refused with BAD_ARG in every state (R78). -/
theorem exec_of_illFormed {i : Instr} {s : State} (h : i.wellFormed s.cfg = false) :
    exec i s = Claims.answers s .badArg := by
  cases i with
  | theta _ _ | rhopi _ _ | chi _ _ | permute _ _ | rdstate _ _ | init _ _ | final _ _ | squeeze _ _ =>
    exact accept_of_operand_eq_none (noOperand_of_illFormed h) _ _ s
  | iota _ _ | round _ _ => exact accept_of_operand_eq_none (roundOperand_of_illFormed h) _ _ s
  | ldstate _ _ => exact accept_of_operand_eq_none (stateOperand_of_illFormed h) _ _ s
  | absorb _ _ => exact accept_of_operand_eq_none (blockOperand_of_illFormed h) _ _ s
  | rdstatus a p =>
    have hnone : noOperand a p = none := noOperand_of_illFormed h
    simp only [exec, execRdstatus, hnone]
    rfl

/-! ### The length of a response -/

/-- A command that is performed and answers has responded with `Q(OP)` bytes, or without data when the code is not OK. Only
three commands return data, and these respond OK. -/
theorem response_length_of_performed {i : Instr} {s t : State} (hp : Performed i s) (h : exec i s = .next t) :
    ∃ r, t.response = some r ∧ r.data.length = if r.code = .ok then Claims.dataLength s.cfg i else 0 := by
  cases i with
  | theta _ _ | rhopi _ _ | chi _ _ | iota _ _ | round _ _ | permute _ _ | ldstate _ _ | init _ _ | absorb _ _
  | final _ _ =>
    obtain ⟨code, hresponse⟩ := response_of_performed hp h
    exact ⟨_, hresponse, (ite_self 0).symm⟩
  | rdstate _ _ =>
    obtain ⟨-, hexec⟩ := hp
    cases hexec.symm.trans h
    exact ⟨_, rfl, lanesToBytes_length s.lanes⟩
  | squeeze _ _ =>
    obtain ⟨-, hexec⟩ := hp
    obtain ⟨hout, hresponse⟩ := squeezeDigest_response (hexec.symm.trans h)
    have hfits : 0 + s.cfg.outlen.toNat ≤ 200 := by
      have := outlen_le_byteRate hout
      have := byteRate_le_200 s.cfg
      omega
    exact ⟨_, hresponse, memRead_length s.lanes hfits⟩
  | rdstatus _ _ =>
    cases Eq.trans (Eq.symm hp) h
    exact ⟨_, rfl, rfl⟩

/-- So has every command that answers: a refusal is not OK and carries no data. -/
theorem response_length_of_exec {i : Instr} {s t : State} (h : exec i s = .next t) :
    ∃ r, t.response = some r ∧ r.data.length = if r.code = .ok then Claims.dataLength s.cfg i else 0 := by
  rcases exec_cases i s with ⟨code, hcode, hrefused⟩ | ⟨-, hp⟩
  · cases hrefused.symm.trans h
    have hne : code ≠ .ok := by rcases hcode with rfl | rfl | rfl <;> decide
    exact ⟨_, rfl, (if_neg hne).symm⟩
  · exact response_length_of_performed hp h

/-! ### Nothing is stuck -/

/-- Under an admissible configuration there is a whole byte of rate (R8). -/
theorem byteRate_ne_zero_of_admissible {c : Config} (h : configAdmissible c = true) : c.byteRate ≠ 0 := by
  simp only [configAdmissible, Bool.and_eq_true, decide_eq_true_eq] at h
  obtain ⟨⟨-, hrate⟩, -⟩ := h
  unfold Config.byteRate
  omega

/-- Under an admissible configuration one squeeze block gives the digest (R8). -/
theorem outlenAdmissible_of_admissible {c : Config} (h : configAdmissible c = true) : outlenAdmissible c = true := by
  obtain ⟨-, hout⟩ := Bool.and_eq_true_iff.mp h
  exact hout

/-- No state of the invariant under a covered configuration is at one of the two stops: phases ABSORB and READY are only
reached under a valid configuration, which is then admissible. -/
theorem not_stopsInadmissible {s : State} (hinv : Inv s) (hcovered : configCovered s.cfg) (i : Instr) :
    ¬StopsInadmissible i s := by
  obtain ⟨-, ⟨hsponge, -⟩, -⟩ := hinv
  rintro (⟨-, habsorb, hrate⟩ | ⟨-, hready, hout⟩)
  · exact byteRate_ne_zero_of_admissible (hcovered (hsponge (.inl habsorb))) hrate
  · simp [outlenAdmissible_of_admissible (hcovered (hsponge (.inr hready)))] at hout

/-- In a state of the invariant under a covered configuration every command answers a next state. -/
theorem exec_answers {s : State} (hinv : Inv s) (hcovered : configCovered s.cfg) (i : Instr) :
    ∃ t, exec i s = .next t := by
  have ⟨hbs, _, _⟩ := hinv
  exact (exec_answers_or_stops i hbs).resolve_right fun ⟨_, hstop⟩ => not_stopsInadmissible hinv hcovered i hstop

/-- So does every step. -/
theorem step_answers {s : State} (hinv : Inv s) (hcovered : configCovered s.cfg) : ∃ t, step s = .next t := by
  rcases step_cases s with ⟨-, hstep⟩ | ⟨_, -, hstep⟩ | ⟨_, _, _, _, -, -, hstep⟩ | ⟨_, _, rest, i, -, -, hstep⟩
  · exact ⟨_, hstep⟩
  · exact ⟨_, hstep⟩
  · exact ⟨_, hstep⟩
  · rw [hstep]
    exact exec_answers (s := { s with host := rest }) hinv hcovered i

/-- No step writes the configuration (R142). -/
theorem step_keeps_cfg {s t : State} (h : step s = .next t) : t.cfg = s.cfg := by
  rcases step_cases s with ⟨-, hstep⟩ | ⟨_, -, hstep⟩ | ⟨_, _, _, _, -, -, hstep⟩ | ⟨_, _, _, _, -, -, hstep⟩
  · cases hstep.symm.trans h
    rfl
  · cases hstep.symm.trans h
    rfl
  · cases hstep.symm.trans h
    rfl
  · obtain ⟨hcfg, -⟩ := exec_keeps_constants (hstep.symm.trans h)
    exact hcfg

/-- Every number of steps answers a state of the invariant. -/
theorem run_answers (n : Nat) {s : State} (hinv : Inv s) (hcovered : configCovered s.cfg) :
    ∃ t, Claims.run n s = .next t ∧ Inv t := by
  induction n generalizing s with
  | zero => exact ⟨s, rfl, hinv⟩
  | succ n ih =>
    obtain ⟨t, hstep⟩ := step_answers hinv hcovered
    rw [run_succ_of_next n hstep]
    exact ih (stepKeepsTheInvariant s t hinv hstep) (by rwa [step_keeps_cfg hstep])

/-! ### The obligations -/

/-- Settles O2: the map's entries keep opcode, ARG and payload, so both directions compare these three. -/
theorem transactionsAndCommandsCorrespond : Obligations.TransactionsAndCommandsCorrespond :=
  ⟨decodeBytes_encodeBytes, fun _ _ h => encodeBytes_of_decodeBytes h⟩

/-- Settles O10, by induction on the number of steps: a step answers, keeps the invariant and keeps the configuration. -/
theorem machineNeverStops : Obligations.MachineNeverStops :=
  fun n _ hinv hcovered => run_answers n hinv hcovered

/-- Settles O3: the ranges by arithmetic, the number by counting, the refusal because the map has no such entry. -/
theorem illegalOpcodesAreRefused : Obligations.IllegalOpcodesAreRefused := by
  refine ⟨fun _ => not_mem_legalOpcodes_iff, by decide +kernel, by decide, by decide, ?_⟩
  intro s w payload rest hhost hillegal
  exact step_of_decode_error hhost (decode_of_illegal hillegal payload)

/-- Settles O13: an ill-formed command has no operand to read; the two words decode to THETA and IOTA. -/
theorem illFormedCommandsAreRefused : Obligations.IllFormedCommandsAreRefused :=
  ⟨fun _ _ h => exec_of_illFormed h, ⟨.theta 1 [], rfl, rfl⟩, ⟨.iota 24 [], rfl, rfl⟩⟩

/-- Settles O45, by the cases of executing a command. -/
theorem responsesHaveTheirLength : Obligations.ResponsesHaveTheirLength :=
  fun _ _ _ h => response_length_of_exec h

/-- Settles O1, by running the decoder on the nine transactions. -/
theorem writtenWordsDecode : Obligations.WrittenWordsDecode :=
  ⟨rfl, rfl, rfl, rfl, rfl, rfl, rfl, rfl, rfl⟩

end Sys2Proof.Machine
end

section
/-! The permutation statements (family 40_permutation.md), the engine: what each step of a round does to every lane, which
uniform states it leaves, and the fused walk against the unfused form. -/

namespace Sys2Proof.Machine

open Sys2Proof

/-! ### Uniform states -/

@[simp] theorem uniform_getElem (v : Lane) (i : Nat) (h : i < 25) : (Claims.uniform v)[i] = v :=
  Vector.getElem_replicate h

/-- Rotation by 0 keeps every lane. -/
theorem rotl64_by_zero (a : Lane) : rotl64 a 0 = a := by
  rw [rotl64, BitVec.shiftLeft_zero, BitVec.ushiftRight_eq_zero (Nat.le_refl 64), BitVec.or_zero]

/-- Rotation keeps the zero lane. -/
theorem rotl64_zero (n : Nat) : rotl64 0 n = 0 := by simp [rotl64]

/-- Rotation keeps the lane of all ones (R11): every bit it moves in is a one. -/
theorem rotl64_allOnes {n : Nat} (hn : n < 64) : rotl64 (BitVec.allOnes 64) n = BitVec.allOnes 64 := by
  rw [rotl64_eq_rotateLeft _ hn]
  apply BitVec.eq_of_getLsbD_eq
  intro i hi
  rw [BitVec.getLsbD_rotateLeft, Nat.mod_eq_of_lt hn]
  by_cases hwraps : i < n
  · have hbit : 64 - n + i < 64 := by omega
    simp only [hwraps, hbit, hi, BitVec.getLsbD_allOnes, decide_true, cond_true]
  · have hbit : i - n < 64 := by omega
    simp only [hwraps, hbit, hi, BitVec.getLsbD_allOnes, decide_true, decide_false, cond_false, Bool.and_true]

/-! ### Coordinates -/

/-- The linear index of lane `(x, y)` (R21). -/
theorem laneIndex_val (x y : Fin 5) : (laneIndex x y).val = x.val + 5 * y.val := rfl

@[simp] theorem laneIndex_mod (x y : Fin 5) : (laneIndex x y).val % 5 = x.val := by
  rw [laneIndex_val]; omega

@[simp] theorem laneIndex_div (x y : Fin 5) : (laneIndex x y).val / 5 = y.val := by
  rw [laneIndex_val]; omega

/-! ### Theta -/

/-- The parity of a column, from its lanes (R92). -/
theorem columnParity_getElem (A : Lanes) (x : Nat) (h : x < 5) :
    (columnParity A)[x] = A[x] ^^^ A[x + 5] ^^^ A[x + 10] ^^^ A[x + 15] ^^^ A[x + 20] := by
  simp [columnParity]

/-- The parity of a column by coordinates (R21, R92). -/
theorem columnParity_laneIndex (A : Lanes) (x : Fin 5) :
    (columnParity A)[x] =
      A[laneIndex x 0] ^^^ A[laneIndex x 1] ^^^ A[laneIndex x 2] ^^^ A[laneIndex x 3] ^^^ A[laneIndex x 4] :=
  columnParity_getElem A x.val x.isLt

/-- What Theta XORs into a column, from the parities of its neighbours (R92). -/
theorem columnEffect_getElem (C : Vector Lane 5) (x : Nat) (h : x < 5) :
    (columnEffect C)[x] =
      C[(x + 4) % 5]'(Nat.mod_lt _ (by decide)) ^^^ rotl64 (C[(x + 1) % 5]'(Nat.mod_lt _ (by decide))) 1 := by
  simp [columnEffect]

/-- The parity of a column of five equal lanes is that lane. -/
theorem columnParity_uniform (v : Lane) (x : Nat) (h : x < 5) : (columnParity (Claims.uniform v))[x] = v := by
  simp [columnParity_getElem]

/-- Theta keeps a uniform state whose lane is its own rotation: both neighbours' parities are that lane. -/
theorem theta_uniform {v : Lane} (hv : rotl64 v 1 = v) : theta (Claims.uniform v) = Claims.uniform v := by
  apply Vector.ext
  intro i hi
  rw [theta_getElem, columnEffect_getElem, columnParity_uniform, columnParity_uniform, hv, uniform_getElem,
    BitVec.xor_self, BitVec.xor_zero]

/-- Theta by coordinates (R92). -/
theorem theta_laneIndex (A : Lanes) (x y : Fin 5) :
    (theta A)[laneIndex x y] = A[laneIndex x y] ^^^
      ((columnParity A)[x + 4] ^^^ ((columnParity A)[x + 1] : Lane).rotateLeft 1) := by
  simp only [Fin.getElem_fin, theta_getElem, columnEffect_getElem, laneIndex_mod, Fin.val_add]
  rw [rotl64_eq_rotateLeft _ (by decide)]
  rfl

/-! ### Chi -/

/-- Chi by coordinates (R95). -/
theorem chi_laneIndex (A : Lanes) (x y : Fin 5) :
    (chi A)[laneIndex x y] = A[laneIndex x y] ^^^ (~~~A[laneIndex (x + 1) y] &&& A[laneIndex (x + 2) y]) := by
  have hnext (d : Fin 5) : 5 * y.val + (x.val + d.val) % 5 = (laneIndex (x + d) y).val := by
    rw [laneIndex_val, Fin.val_add, Nat.add_comm]
  simp only [Fin.getElem_fin, chi_getElem, laneIndex_mod, laneIndex_div, ← hnext]
  rfl

/-- Chi keeps every uniform state: the complement and the lane have no bit in common. -/
theorem chi_uniform (v : Lane) : chi (Claims.uniform v) = Claims.uniform v := by
  apply Vector.ext
  intro i hi
  simp [chi_getElem]

/-! ### Iota -/

/-- Iota writes lane 0 (R96). -/
theorem iota_eq_set (r : Fin 24) (A : Lanes) : iota r A = A.set 0 (A[0] ^^^ RC[r.val]) := by
  rw [iota]

/-- Iota of one round is its own inverse: the constant goes in twice (R96). -/
theorem iota_iota (r : Fin 24) (A : Lanes) : iota r (iota r A) = A := by
  apply Vector.ext
  intro i hi
  by_cases h0 : i = 0
  · subst h0
    simp [iota_getElem]
  · simp [iota_getElem, h0]

/-! ### The walk of Rho and Pi -/

/-- The lane step `t` of the walk takes its content from: lane 1 for step 0, then the target of the step before (R93). -/
def walkSource (t : Nat) (h : t < 24) : Fin 25 := if t = 0 then 1 else PI[t - 1]

/-- Lane 0 is no target of the walk (R29, R93). -/
theorem rhoPi_lane_zero (A : Lanes) : (rhoPi A)[0] = A[0] := by
  unfold rhoPi
  exact carryWalk_of_not_target _ _ _ 0 (by decide) fun q hq => zero_not_mem_PI q.1 (List.of_mem_zip hq).1

/-- Step `t` of the walk puts the old lane of its source, rotated by `RHO[t]`, into lane `PI[t]` (R93). -/
theorem rhoPi_target (A : Lanes) (t : Nat) (h : t < 24) :
    (rhoPi A)[PI[t]] = rotl64 A[walkSource t h] RHO[t].val := by
  have hdistinct : ((PI.toList.zip RHO.toList).map Prod.fst).Nodup := by decide
  have hlength : t < (PI.toList.zip RHO.toList).length := by simpa using h
  have hwalk := carryWalk_target (PI.toList.zip RHO.toList) A A[1] hdistinct t hlength
  simp only [List.getElem_zip, Vector.getElem_toList] at hwalk
  simp only [rhoPi, walkSource, Fin.getElem_fin, hwalk]
  by_cases h0 : t = 0
  · simp only [h0, dite_true, if_true]
    rfl
  · simp only [h0, dite_false, if_false]

/-- The per-lane tables are those of the walk (R94): every lane but lane 0 is the source of a step, whose target and amount
they give. -/
theorem exists_step_of_source :
    ∀ i : Fin 25, i ≠ 0 → ∃ t : Fin 24, walkSource t.val t.isLt = i ∧ PI[t.val] = DST[i] ∧ RHO[t.val] = ROT[i] := by
  decide

/-- `DST` sends the lanes to distinct lanes (R94). -/
theorem DST_nodup : ((List.finRange 25).map fun i => DST[i]).Nodup := by decide

/-- `DST` reaches every lane (R94). -/
theorem exists_DST_eq : ∀ j : Fin 25, ∃ i : Fin 25, DST[i] = j := by decide

/-- The walk, per lane: lane `i` goes to lane `DST[i]`, rotated by `ROT[i]` (R94). -/
theorem rhoPi_DST (A : Lanes) (i : Fin 25) : (rhoPi A)[DST[i]] = rotl64 A[i] ROT[i].val := by
  by_cases h0 : i = 0
  · subst h0
    exact (rhoPi_lane_zero A).trans (rotl64_by_zero A[0]).symm
  · obtain ⟨t, hsource, htarget, hamount⟩ := exists_step_of_source i h0
    calc (rhoPi A)[DST[i]]
        = (rhoPi A)[PI[t.val]] := by simp only [htarget]
      _ = rotl64 A[walkSource t.val t.isLt] RHO[t.val].val := rhoPi_target A t.val t.isLt
      _ = rotl64 A[i] ROT[i].val := by simp only [hsource, hamount]

/-- The unfused form, per lane (R94). -/
theorem rhoPiUnfused_DST (A : Lanes) (i : Fin 25) : (rhoPiUnfused A)[DST[i]] = rotl64 A[i] ROT[i].val := by
  unfold rhoPiUnfused
  exact foldl_set_target _ (fun i => DST[i]) (fun i => rotl64 A[i] ROT[i].val) A DST_nodup i (List.mem_finRange i)

/-- Two states that agree on the lanes `DST[i]` are equal. -/
theorem lanes_eq_of_DST {A B : Lanes} (h : ∀ i : Fin 25, A[DST[i]] = B[DST[i]]) : A = B := by
  apply Vector.ext
  intro j hj
  obtain ⟨i, hi⟩ := exists_DST_eq ⟨j, hj⟩
  have hsame := h i
  simp only [hi] at hsame
  exact hsame

/-- The carry walk is the unfused form (R94). -/
theorem rhoPi_eq_rhoPiUnfused (A : Lanes) : rhoPi A = rhoPiUnfused A :=
  lanes_eq_of_DST fun i => (rhoPi_DST A i).trans (rhoPiUnfused_DST A i).symm

/-- No lane but lane 0 goes to lane 0 (R94). -/
theorem DST_ne_zero : ∀ i : Fin 25, i ≠ 0 → DST[i] ≠ 0 := by decide

/-- The walk keeps a state whose lanes, lane 0 apart, all are one lane that is its own rotation. -/
theorem rhoPi_uniform_set_zero {v : Lane} (hv : ∀ n < 64, rotl64 v n = v) (w : Lane) :
    rhoPi ((Claims.uniform v).set 0 w) = (Claims.uniform v).set 0 w := by
  apply lanes_eq_of_DST
  intro i
  by_cases h0 : i = 0
  · subst h0; exact rhoPi_lane_zero _
  · have hother (j : Fin 25) (hj : j ≠ 0) : ((Claims.uniform v).set 0 w)[j] = v := by
      have hne : 0 ≠ j.val := fun he => hj (Fin.ext he.symm)
      rw [Fin.getElem_fin, Vector.getElem_set_ne _ _ hne, uniform_getElem]
    rw [rhoPi_DST, hother i h0, hother _ (DST_ne_zero i h0), hv _ ROT[i].isLt]

/-! ### The rounds -/

/-- A round is its four steps (R91, R97). -/
theorem keccakRound_eq_steps (A : Lanes) (r : Fin 24) : keccakRound A r = iota r (chi (rhoPi (theta A))) := by
  rw [keccakRound]

/-- The permutation is its 24 rounds in order (R90, R98). -/
theorem keccakF_eq_rounds (A : Lanes) : keccakF A = (List.finRange 24).foldl keccakRound A := by
  rw [keccakF]

/-- The permutation, evaluated on the zero state, does not give it back (R102). -/
theorem keccakF_uniform_zero_ne : keccakF (Claims.uniform 0) ≠ Claims.uniform 0 := by decide +kernel

end Sys2Proof.Machine
end

section
/-! The permutation statements, the commands: where an engine command is performed and where it is refused, commands one
after the other, and the theorems that settle the statements. -/

namespace Sys2Proof.Machine

open Sys2Proof

/-! ### An engine command -/

/-- Outside phase RAW a well-formed engine command is refused, with FAULTED in phase FAULT and BAD_PHASE elsewhere (R99). -/
theorem rawStep_of_ne_raw {α : Type} (a : α) (f : α → Lanes → Lanes) {s : State} (h : s.phase ≠ .raw) :
    rawStep (some a) f s = Claims.answers s (if s.phase = .fault then .faulted else .badPhase) := by
  by_cases hfault : s.phase = .fault
  · rw [if_pos hfault]
    exact accept_faulted a _ _ hfault
  · have hlegal : (s.phase == .raw) = false := by simpa using h
    rw [if_neg hfault, rawStep, hlegal]
    exact accept_badPhase a _ hfault

/-- A raw step whose operand is read is one without operand. -/
theorem rawStep_of_operand_eq_some {α : Type} {operand : Option α} {a : α} (h : operand = some a)
    (f : α → Lanes → Lanes) (s : State) : rawStep operand f s = rawStep (some ()) (fun _ => f a) s := by
  rw [h]
  rfl

/-- The operand of a command without one is read when it is well formed (R73, R74). -/
theorem noOperand_of_wellFormed {a : Byte} {p : List Byte} (h : (a == 0 && p.length == 0) = true) :
    noOperand a p = some () := by
  simpa [noOperand_eq_some] using h

/-- A legal round number is read (R73, R96, R97). -/
theorem roundOperand_of_lt {a : Byte} (h : a.toNat < 24) : roundOperand a [] = some ⟨a.toNat, h⟩ :=
  roundOperand_eq_some.mpr ⟨rfl, rfl⟩

/-- The operand of a well-formed command of a round is a round number (R73, R74). -/
theorem roundOperand_of_wellFormed {a : Byte} {p : List Byte} (h : (decide (a.toNat ≤ 23) && p.length == 0) = true) :
    ∃ r, roundOperand a p = some r := by
  obtain ⟨hle, rfl⟩ : a.toNat ≤ 23 ∧ p = [] := by simpa using h
  exact ⟨_, roundOperand_of_lt (Nat.lt_succ_of_le hle)⟩

/-- A well-formed engine command is one raw step of the engine (R99). -/
theorem exec_engine_eq_rawStep {i : Instr} {s : State} (hi : Claims.isEngineCommand i = true)
    (hwf : i.wellFormed s.cfg = true) : ∃ f : Lanes → Lanes, exec i s = rawStep (some ()) (fun _ => f) s := by
  cases i with
  | theta _ _ | rhopi _ _ | chi _ _ | permute _ _ =>
    exact ⟨_, rawStep_of_operand_eq_some (noOperand_of_wellFormed hwf) _ s⟩
  | iota _ _ | round _ _ =>
    obtain ⟨r, hr⟩ := roundOperand_of_wellFormed hwf
    exact ⟨_, rawStep_of_operand_eq_some hr _ s⟩
  | ldstate _ _ | rdstate _ _ | init _ _ | absorb _ _ | final _ _ | squeeze _ _ | rdstatus _ _ => nomatch hi

/-- Outside phase RAW a well-formed engine command is refused (R99). -/
theorem exec_engine_of_ne_raw {i : Instr} {s : State} (hi : Claims.isEngineCommand i = true)
    (hwf : i.wellFormed s.cfg = true) (hraw : s.phase ≠ .raw) :
    exec i s = Claims.answers s (if s.phase = .fault then .faulted else .badPhase) := by
  obtain ⟨f, hexec⟩ := exec_engine_eq_rawStep hi hwf
  exact hexec.trans (rawStep_of_ne_raw () _ hraw)

/-- A command without operand that is a raw step of the engine, in every state and for every operand (R99). -/
theorem rawCommand_of_exec {mk : Byte → List Byte → Instr} {f : Lanes → Lanes}
    (h : ∀ a p s, exec (mk a p) s = rawStep (noOperand a p) (fun _ => f) s) : Claims.rawCommand mk f := by
  refine fun s => ⟨fun hraw => ?_, fun hraw => ?_, fun a p hill => ?_⟩
  · rw [h]
    exact rawStep_raw () _ hraw
  · rw [h]
    exact rawStep_of_ne_raw () _ hraw
  · rw [h]
    exact accept_of_operand_eq_none (noOperand_eq_none hill) _ _ s

/-! The four engine commands without operand (R92, R93, R95, R98). -/

theorem rawCommand_theta : Claims.rawCommand .theta theta := rawCommand_of_exec fun _ _ _ => rfl
theorem rawCommand_rhopi : Claims.rawCommand .rhopi rhoPi := rawCommand_of_exec fun _ _ _ => rfl
theorem rawCommand_chi : Claims.rawCommand .chi chi := rawCommand_of_exec fun _ _ _ => rfl
theorem rawCommand_permute : Claims.rawCommand .permute keccakF := rawCommand_of_exec fun _ _ _ => rfl

/-- In phase RAW a well-formed command without operand is performed (R99). -/
theorem exec_of_rawCommand {mk : Byte → List Byte → Instr} {f : Lanes → Lanes} (hmk : Claims.rawCommand mk f) {s : State}
    (hraw : s.phase = .raw) : exec (mk 0 []) s = .next (s.permuteLanes f) := by
  obtain ⟨hperformed, -, -⟩ := hmk s
  exact hperformed hraw

/-- A well-formed IOTA has a round number and no payload (R73, R74). -/
theorem wellFormed_iota_iff {c : Config} {a : Byte} {p : List Byte} :
    (Instr.iota a p).wellFormed c = true ↔ a.toNat < 24 ∧ p = [] := by
  simp [Instr.wellFormed, Instr.argLegal, Instr.requiredPayload, Instr.payload, Nat.lt_succ_iff]

/-- IOTA of a legal round in phase RAW is performed (R96). -/
theorem exec_iota_of_raw {s : State} {a : Byte} (h : a.toNat < 24) (hraw : s.phase = .raw) :
    exec (.iota a []) s = .next (s.permuteLanes (iota ⟨a.toNat, h⟩)) := by
  rw [exec, execIota, roundOperand_of_lt h]
  exact rawStep_raw _ _ hraw

/-- ROUND of a legal round in phase RAW is performed (R97). -/
theorem exec_round_of_raw {s : State} {a : Byte} (h : a.toNat < 24) (hraw : s.phase = .raw) :
    exec (.round a []) s = .next (s.permuteLanes fun A => keccakRound A ⟨a.toNat, h⟩) := by
  rw [exec, execRound, roundOperand_of_lt h]
  exact rawStep_raw _ _ hraw

/-! ### Commands one after the other -/

/-- Two steps of the engine are one, of the composed effect. -/
@[simp] theorem permuteLanes_permuteLanes (s : State) (f g : Lanes → Lanes) :
    (s.permuteLanes f).permuteLanes g = s.permuteLanes fun A => g (f A) := rfl

/-- A command that answers hands its state to the rest. -/
theorem execAll_cons_of_next {i : Instr} {s t : State} (h : exec i s = .next t) (rest : List Instr) :
    execAll (i :: rest) s exec = execAll rest t exec := by
  rw [execAll, h]

/-- ROUND as the host sends it for a round number (R97). -/
def roundCommand (r : Nat) : Instr := .round (BitVec.ofNat 8 r) []

/-- ROUND of a round number in phase RAW performs that round. -/
theorem exec_roundCommand (s : State) (r : Fin 24) (hraw : s.phase = .raw) :
    exec (roundCommand r.val) s = .next (s.permuteLanes fun A => keccakRound A r) := by
  have hval : (BitVec.ofNat 8 r.val).toNat = r.val := by
    rw [BitVec.toNat_ofNat]
    omega
  have hlt : (BitVec.ofNat 8 r.val).toNat < 24 := by
    rw [hval]
    exact r.isLt
  have hround : (⟨_, hlt⟩ : Fin 24) = r := Fin.ext hval
  rw [roundCommand, exec_round_of_raw hlt hraw, hround]

/-- Commands that are each performed in phase RAW are performed one after the other, in the order of the list. -/
theorem execAll_of_performed {α : Type} {command : α → Instr} {effect : Lanes → α → Lanes}
    (h : ∀ (s : State) (a : α), s.phase = .raw → exec (command a) s = .next (s.permuteLanes fun A => effect A a))
    {s : State} (hraw : s.phase = .raw) (a : α) (as : List α) :
    execAll ((a :: as).map command) s exec = .next (s.permuteLanes fun A => (a :: as).foldl effect A) := by
  induction as generalizing s a with
  | nil => exact execAll_cons_of_next (h s a hraw) []
  | cons b as ih =>
    rw [List.map_cons, execAll_cons_of_next (h s a hraw)]
    exact ih (s := s.permuteLanes _) hraw b

/-! ### The obligations -/

/-- Settles O18: a well-formed engine command is a raw step of the engine, performed in phase RAW and refused elsewhere. -/
theorem engineCommandsNeedPhaseRaw : Obligations.EngineCommandsNeedPhaseRaw := by
  intro i s hi hwf
  refine ⟨fun hraw => ?_, exec_engine_of_ne_raw hi hwf⟩
  obtain ⟨f, hexec⟩ := exec_engine_eq_rawStep hi hwf
  refine ⟨s.permuteLanes f, hexec.trans (rawStep_raw () _ hraw), hraw, rfl, fun hinv => ?_, rfl⟩
  obtain ⟨hzero | ⟨habsorb, -⟩, -, -⟩ := hinv
  · exact hzero
  · simp [hraw] at habsorb

/-- Settles O19, from Theta by coordinates; the two uniform states have a lane that is its own rotation. -/
theorem thetaMixesColumnParities : Obligations.ThetaMixesColumnParities := by
  refine ⟨theta, rawCommand_theta, fun A x y => ?_, theta_uniform (rotl64_zero 1),
    theta_uniform (rotl64_allOnes (by decide))⟩
  rw [theta_laneIndex, columnParity_laneIndex, columnParity_laneIndex]

/-- Settles O20, from the target of each step of the walk. -/
theorem rhopiWalksTheCarryLane : Obligations.RhopiWalksTheCarryLane := by
  refine ⟨rhoPi, rawCommand_rhopi, rhoPi_lane_zero, fun A => ?_, fun A t h => ?_,
    rhoPi_uniform_set_zero fun n _ => rotl64_zero n, rhoPi_uniform_set_zero fun _ hn => rotl64_allOnes hn⟩
  · rw [← rotl64_eq_rotateLeft _ RHO[0].isLt]
    exact rhoPi_target A 0 (by decide)
  · rw [← rotl64_eq_rotateLeft _ RHO[t + 1].isLt]
    exact rhoPi_target A (t + 1) h

/-- Settles O21: both forms put every lane where the per-lane tables say, and these reach every lane. -/
theorem fusedWalkEqualsUnfusedForm : Obligations.FusedWalkEqualsUnfusedForm := by
  refine ⟨rhoPi_eq_rhoPiUnfused, fun A i => ?_, by decide⟩
  rw [← rotl64_eq_rotateLeft _ ROT[i].isLt]
  exact rhoPi_DST A i

/-- Settles O22, from Chi by coordinates. -/
theorem chiCombinesRows : Obligations.ChiCombinesRows :=
  ⟨chi, rawCommand_chi, chi_laneIndex, chi_uniform 0, chi_uniform 0xFFFFFFFFFFFFFFFF⟩

/-- Settles O23: a well-formed IOTA is a raw step of the engine, every other is refused, and the step is its own inverse. -/
theorem iotaInjectsTheRoundConstant : Obligations.IotaInjectsTheRoundConstant := by
  refine ⟨fun s a h hraw => ?_, fun s a p hbad => ?_, fun s a h hraw => ?_, fun s a h hraw => ?_, by decide, by decide⟩
  · rw [← iota_eq_set ⟨a.toNat, h⟩]
    exact exec_iota_of_raw h hraw
  · refine exec_of_illFormed (Bool.eq_false_iff.mpr fun hwf => ?_)
    obtain ⟨hlt, hempty⟩ := wellFormed_iota_iff.mp hwf
    rcases hbad with hbig | hpayload
    · exact Nat.not_lt.mpr hbig hlt
    · exact hpayload hempty
  · exact exec_engine_of_ne_raw rfl (wellFormed_iota_iff.mpr ⟨h, rfl⟩) hraw
  · exact ⟨_, _, exec_iota_of_raw h hraw, exec_iota_of_raw (s := s.permuteLanes _) h hraw, iota_iota _ s.lanes⟩

/-- Settles O24: each of the four commands is performed in turn, and a round is the composition of the four. -/
theorem roundIsFourCommands : Obligations.RoundIsFourCommands := by
  intro s a h hraw
  have htheta := exec_of_rawCommand rawCommand_theta hraw
  have hrhopi := exec_of_rawCommand rawCommand_rhopi (s := s.permuteLanes theta) hraw
  have hchi := exec_of_rawCommand rawCommand_chi (s := (s.permuteLanes theta).permuteLanes rhoPi) hraw
  have hiota := exec_iota_of_raw (s := ((s.permuteLanes theta).permuteLanes rhoPi).permuteLanes chi) h hraw
  refine ⟨_, exec_round_of_raw h hraw, ?_, rfl⟩
  rw [execAll_cons_of_next htheta, execAll_cons_of_next hrhopi, execAll_cons_of_next hchi, execAll_cons_of_next hiota]
  simp only [execAll, permuteLanes_permuteLanes, keccakRound_eq_steps]

/-- Settles O25: the ROUND commands perform their rounds in order, and the permutation is the 24 rounds. -/
theorem permuteIsTwentyFourRounds : Obligations.PermuteIsTwentyFourRounds := by
  intro s hraw
  refine ⟨_, exec_of_rawCommand rawCommand_permute hraw, ?_, rfl⟩
  have hcommands : (List.range 24).map roundCommand = (List.finRange 24).map fun r => roundCommand r.val := by
    rw [← List.map_coe_finRange_eq_range, List.map_map]
    rfl
  have hrounds := execAll_of_performed exec_roundCommand hraw 0 ((List.finRange 23).map Fin.succ)
  rw [← List.finRange_succ, ← hcommands] at hrounds
  rw [funext keccakF_eq_rounds]
  exact hrounds

/-- Settles O26, by evaluating the permutation on the zero state. -/
theorem permuteMovesTheZeroState : Obligations.PermuteMovesTheZeroState := by
  intro s hraw hzero
  refine ⟨_, exec_of_rawCommand rawCommand_permute hraw, ?_⟩
  rw [State.permuteLanes_lanes, hzero]
  exact keccakF_uniform_zero_ne

end Sys2Proof.Machine
end

section
/-! The state transfer statements (family 41_state_transfer.md): what LDSTATE and RDSTATE answer in every phase, the bytes
loaded as the bytes read back, and INIT as LDSTATE of zeros. -/

namespace Sys2Proof.Machine

open Sys2Proof

/-! ### LDSTATE -/

/-- Every payload of 200 bytes is a whole state (R74, R110). -/
theorem exists_toList_eq_of_length {payload : List Byte} (h : payload.length = 200) :
    ∃ B : Vector Byte 200, B.toList = payload :=
  ⟨⟨payload.toArray, by rwa [List.size_toArray]⟩, rfl⟩

/-- In phase FAULT a well-formed LDSTATE is refused with FAULTED (R110). -/
theorem exec_ldstate_of_fault (B : Vector Byte 200) {s : State} (h : s.phase = .fault) :
    exec (.ldstate 0 B.toList) s = Claims.answers s .faulted := by
  simp only [exec, execLdstate, stateOperand_eq_some.mpr ⟨rfl, rfl⟩]
  exact accept_faulted B _ _ h

/-- Settles O32: a payload of 200 bytes is a whole state, and the byte view of `bytes_to_lanes` is its bytes. -/
theorem ldstateLoadsThePayload : Obligations.LdstateLoadsThePayload := by
  refine ⟨fun s payload hlen hphase => ?_, fun s payload hlen hfault => ?_, fun s arg payload hbad => ?_⟩
  · obtain ⟨B, rfl⟩ := exists_toList_eq_of_length hlen
    refine ⟨bytesToLanes B, fun k => ?_, exec_ldstate_of_ne_fault B hphase⟩
    rw [byteAt_bytesToLanes, Vector.getElem_toList]
  · obtain ⟨B, rfl⟩ := exists_toList_eq_of_length hlen
    exact exec_ldstate_of_fault B hfault
  · refine exec_of_illFormed (Bool.eq_false_iff.mpr fun hwf => ?_)
    obtain ⟨harg, hlen⟩ := wellFormed_ldstate_iff.mp hwf
    exact hbad.elim (absurd harg) (absurd hlen)

/-! ### RDSTATE -/

/-- A well-formed command in a phase that is not legal for it is refused, with FAULTED in phase FAULT and BAD_PHASE
elsewhere (R163). -/
theorem accept_of_not_legal {α : Type} (a : α) {legal : Bool} (perform : α → Result) {s : State} (h : legal = false) :
    accept (some a) legal perform s = Claims.answers s (if s.phase = .fault then .faulted else .badPhase) := by
  by_cases hfault : s.phase = .fault
  · rw [if_pos hfault]
    exact accept_faulted a _ _ hfault
  · rw [if_neg hfault, h]
    exact accept_badPhase a _ hfault

/-- A well-formed RDSTATE in phase RAW responds with the buffer (R111). -/
theorem exec_rdstate_of_raw {s : State} (h : s.phase = .raw) :
    exec (.rdstate 0 []) s = .next (s.respond .ok (lanesToBytes s.lanes)) := by
  have hlegal : (s.phase == .raw) = true := by simp [h]
  rw [exec, execRdstate, hlegal]
  exact accept_performs () _ (by simp [h])

/-- A well-formed RDSTATE outside phase RAW is refused (R111). -/
theorem exec_rdstate_of_ne_raw {s : State} (h : s.phase ≠ .raw) :
    exec (.rdstate 0 []) s = Claims.answers s (if s.phase = .fault then .faulted else .badPhase) := by
  have hlegal : (s.phase == .raw) = false := by simpa using h
  rw [exec, execRdstate]
  exact accept_of_not_legal () _ hlegal

/-- Settles O33: in phase RAW the data is `lanes_to_bytes`; elsewhere, and ill formed, it is the checks that answer. -/
theorem rdstateReturnsTheBuffer : Obligations.RdstateReturnsTheBuffer := by
  refine ⟨fun s hraw => ?_, fun s hraw => ?_, fun s arg payload hbad => ?_⟩
  · refine ⟨lanesToBytes s.lanes, exec_rdstate_of_raw hraw, lanesToBytes_length s.lanes, fun k => ?_⟩
    rw [List.getElem?_eq_getElem (by simp), lanesToBytes_getElem]
  · exact exec_rdstate_of_ne_raw hraw
  · exact accept_of_operand_eq_none (noOperand_eq_none hbad) _ _ s

/-! ### The two together, and INIT -/

/-- `lanes_to_bytes` after `bytes_to_lanes` gives the bytes back (R54). -/
theorem lanesToBytes_bytesToLanes (B : Vector Byte 200) : lanesToBytes (bytesToLanes B) = B.toList := by
  obtain ⟨-, hbytes, -⟩ := conversionsAreInverse
  exact hbytes B

/-- Settles O34: LDSTATE enters phase RAW, where RDSTATE is performed, and the two conversions are inverse. -/
theorem rdstateReadsBackLdstate : Obligations.RdstateReadsBackLdstate := by
  intro s payload hlen hphase
  obtain ⟨B, rfl⟩ := exists_toList_eq_of_length hlen
  refine ⟨_, _, exec_ldstate_of_ne_fault B hphase, exec_rdstate_of_raw rfl, ?_⟩
  rw [State.respond_response, State.respond_lanes, lanesToBytes_bytesToLanes]

/-- Every byte of zero lanes is zero (R22). -/
theorem byteAt_zero_lanes (k : Fin 200) : byteAt (Vector.replicate 25 0) k = 0 := by
  simp [byteAt]

/-- 200 zero bytes are zero lanes (R52, R112). -/
theorem bytesToLanes_zero : bytesToLanes (Vector.replicate 200 0) = Vector.replicate 25 0 :=
  lanes_ext fun k => by rw [byteAt_bytesToLanes, Vector.getElem_replicate, byteAt_zero_lanes]

/-- Settles O35: under a valid configuration INIT writes zero lanes, which are what 200 zero bytes load. -/
theorem initIsLdstateOfZeros : Obligations.InitIsLdstateOfZeros := by
  intro s hphase hvalid
  have hload := exec_ldstate_of_ne_fault (Vector.replicate 200 0) hphase
  rw [Vector.toList_replicate, bytesToLanes_zero] at hload
  rcases initialise_cases s with ⟨-, hinit⟩ | ⟨hinvalid, -⟩
  · refine ⟨s.initialise, _, exec_init_of_ne_fault hphase, hload, ?_⟩
    simp [hinit]
  · simp [hvalid] at hinvalid

end Sys2Proof.Machine
end

section
/-! The sponge statements (family 42_sponge.md), the commands: what INIT, ABSORB, FINAL and SQUEEZE write and when they are
refused, with the block and the padding as one XOR of the whole window. -/

namespace Sys2Proof.Machine

open Sys2Proof

/-! ### INIT -/

/-- The configuration check of INIT (R7, R121). -/
theorem configValid_iff {c : Config} :
    configValid c = true ↔ c.rate.val + c.capacity.val = 1600 ∧ c.rate.val % 8 = 0 := by
  simp [configValid]

/-- Under a valid configuration INIT zeroes lanes and BS and enters ABSORB (R121). -/
theorem initialise_of_valid {s : State} (h : configValid s.cfg = true) :
    s.initialise = { s with lanes := Claims.uniform 0, bs := 0, phase := .absorb, response := some ⟨.ok, []⟩ } :=
  if_pos h

/-- Settles O36: the check decides between the zeroed state and the fault; the rest is the checks before the command. -/
theorem initStartsASponge : Obligations.InitStartsASponge := by
  refine ⟨fun s hphase hsum hrate => ?_, fun s hphase hinvalid => ?_, fun s hfault => ?_, fun s arg payload hbad => ?_⟩
  · rw [exec_init_of_ne_fault hphase, initialise_of_valid (configValid_iff.mpr ⟨hsum, hrate⟩)]
  · rw [exec_init_of_ne_fault hphase, State.initialise, if_neg (configValid_iff.not.mpr hinvalid)]
    rfl
  · exact accept_faulted () true (fun _ => .next s.initialise) hfault
  · exact accept_of_operand_eq_none (noOperand_eq_none hbad) _ _ s

/-! ### ABSORB -/

/-- Every byte of the window XORed at once (R133). -/
theorem byteAt_xorWindow (A : Lanes) (block : List Byte) (k : Fin 200) :
    byteAt (xorWindow A block) k = byteAt A k ^^^ block.getD k.val 0 := by
  rw [xorWindow, byteAt_bytesToLanes, Vector.getElem_ofFn]

/-- The XOR of no bytes changes nothing. -/
@[simp] theorem xorWindow_nil (A : Lanes) : xorWindow A [] = A :=
  lanes_ext fun k => by simp [byteAt_xorWindow]

/-- A well-formed ABSORB has a block length from 1 to BYTE_RATE and as many bytes (R73, R74). -/
theorem wellFormed_absorb_iff {c : Config} {a : Byte} {p : List Byte} :
    (Instr.absorb a p).wellFormed c = true ↔ 1 ≤ a.toNat ∧ a.toNat ≤ c.byteRate ∧ p.length = a.toNat := by
  simp [Instr.wellFormed, Instr.argLegal, Instr.requiredPayload, Instr.payload, and_assoc]

/-- The block of a well-formed ABSORB is its payload. -/
theorem blockOperand_of_wellFormed {c : Config} {a : Byte} {p : List Byte}
    (h : (Instr.absorb a p).wellFormed c = true) : blockOperand c a p = some p :=
  blockOperand_eq_some.mpr ⟨wellFormed_absorb_iff.mp h, rfl⟩

/-- A block XORed byte by byte from byte 0 is the window XORed at once (R133). -/
theorem absorbBlock_eq_xorWindow (s : State) {block : List Byte} (h : block.length ≤ 200) :
    s.absorbBlock block =
      .next ({ s with lanes := xorWindow s.lanes block, bs := BitVec.ofNat 8 block.length }.permuteIfFull.respond .ok
        []) := by
  obtain ⟨A, -, hbytes, hnext⟩ := absorbBlock_spec s block h
  have hA : A = xorWindow s.lanes block := lanes_ext fun k => by rw [hbytes, byteAt_xorWindow]
  rw [hnext, hA]

/-- A well-formed ABSORB in phase ABSORB with BS 0 XORs the block into the window, and permutes after a full one (R122). -/
theorem exec_absorb_of_absorb {s : State} {a : Byte} {p : List Byte} (hphase : s.phase = .absorb) (hbs : s.bs = 0)
    (hwf : (Instr.absorb a p).wellFormed s.cfg = true) :
    exec (.absorb a p) s =
      .next (if a.toNat = s.cfg.byteRate then
          { s with lanes := keccakF (xorWindow s.lanes p), bs := 0, response := some ⟨.ok, []⟩ }
        else { s with lanes := xorWindow s.lanes p, bs := a, response := some ⟨.ok, []⟩ }) := by
  have hlegal : (s.phase == .absorb && s.bs == 0) = true := by simp [hphase, hbs]
  have hlen : BitVec.ofNat 8 p.length = a := by
    rw [(length_of_wellFormed_absorb hwf).1, BitVec.ofNat_toNat, BitVec.setWidth_eq]
  rw [exec, execAbsorb, blockOperand_of_wellFormed hwf, hlegal, accept_performs p _ (by simp [hphase]),
    absorbBlock_eq_xorWindow s (length_le_200_of_wellFormed_absorb hwf), hlen, State.permuteIfFull]
  split_ifs <;> rfl

/-- A well-formed ABSORB in another phase or with BS not 0 is refused (R122). -/
theorem exec_absorb_of_not_legal {s : State} {a : Byte} {p : List Byte}
    (hwf : (Instr.absorb a p).wellFormed s.cfg = true) (h : s.phase ≠ .absorb ∨ s.bs ≠ 0) :
    exec (.absorb a p) s = Claims.answers s (if s.phase = .fault then .faulted else .badPhase) := by
  have hlegal : (s.phase == .absorb && s.bs == 0) = false := by
    rw [Bool.and_eq_false_iff, beq_eq_false_iff_ne, beq_eq_false_iff_ne]
    exact h
  rw [exec, execAbsorb, blockOperand_of_wellFormed hwf]
  exact accept_of_not_legal p _ hlegal

/-- Settles O37: the lanes are the XOR of the whole window, read byte by byte; the refusals are the checks'. -/
theorem absorbXorsOneBlock : Obligations.AbsorbXorsOneBlock := by
  refine ⟨fun s arg payload hphase hbs hpos hle hlen => ?_, fun s arg payload hbad => ?_,
    fun s arg payload hpos hle hlen => ?_⟩
  · refine ⟨xorWindow s.lanes payload, fun k => ?_,
      exec_absorb_of_absorb hphase hbs (wellFormed_absorb_iff.mpr ⟨hpos, hle, hlen⟩)⟩
    rw [byteAt_xorWindow]
    split_ifs with hk
    · rw [List.getD_eq_getElem _ _ hk]
    · rw [List.getD_eq_default _ _ (Nat.not_lt.mp hk)]
      exact BitVec.xor_zero
  · refine exec_of_illFormed (Bool.eq_false_iff.mpr fun hwf => ?_)
    obtain ⟨hpos, hle, hlen⟩ := wellFormed_absorb_iff.mp hwf
    omega
  · have hwf := wellFormed_absorb_iff.mpr ⟨hpos, hle, hlen⟩
    refine ⟨fun hfault => ?_, fun hphase hillegal => ?_⟩
    · rw [exec_absorb_of_not_legal hwf (.inl (by simp [hfault])), if_pos hfault]
    · rw [exec_absorb_of_not_legal hwf hillegal, if_neg hphase]

/-! ### FINAL -/

/-- FINAL of padded lanes, when there is a whole byte of rate (R123). -/
theorem finalise_of_padLanes {s : State} {A : Lanes} (hrate : s.cfg.byteRate ≠ 0)
    (hpad : padLanes s.cfg s.bs.toNat s.lanes = some A) :
    s.finalise = .next { s with lanes := keccakF A, bs := 0, phase := .ready, response := some ⟨.ok, []⟩ } := by
  rw [State.finalise, if_neg hrate, hpad]
  rfl

/-- A well-formed FINAL outside phase ABSORB is refused (R123). -/
theorem exec_final_of_ne_absorb {s : State} (h : s.phase ≠ .absorb) :
    exec (.final 0 []) s = Claims.answers s (if s.phase = .fault then .faulted else .badPhase) :=
  accept_of_not_legal () (fun _ => s.finalise) (by simpa using h)

/-- A byte at the place of one, of both or of neither of two XORs (R129). -/
theorem xor_ite_xor_ite (b x y : Byte) (first last : Prop) [Decidable first] [Decidable last] :
    b ^^^ ((if first then x else 0) ^^^ (if last then y else 0)) =
      if first ∧ last then b ^^^ (x ^^^ y) else if first then b ^^^ x else if last then b ^^^ y else b := by
  by_cases hfirst : first <;> by_cases hlast : last <;> simp [hfirst, hlast]

/-- Settles O38: the two XORs of the padding, by whether they fall on the byte and on the same byte. -/
theorem finalPadsAndPermutes : Obligations.FinalPadsAndPermutes := by
  refine ⟨fun s hphase hbs => ?_, fun s hphase => exec_final_of_ne_absorb hphase, fun s arg payload hbad => ?_⟩
  · obtain ⟨A, hpad, hbytes⟩ := padLanes_spec s.cfg s.bs.toNat s.lanes (hbs.trans_le (byteRate_le_200 s.cfg))
    refine ⟨A, fun k => ?_, ?_⟩
    · rw [hbytes k, xor_ite_xor_ite]
    · rw [exec_final_of_absorb hphase]
      exact finalise_of_padLanes (Nat.ne_zero_of_lt hbs) hpad
  · exact accept_of_operand_eq_none (noOperand_eq_none hbad) _ _ s

/-! ### SQUEEZE -/

/-- SQUEEZE of an admissible digest length (R124). -/
theorem squeezeDigest_of_outlenAdmissible {s : State} (h : outlenAdmissible s.cfg = true) :
    s.squeezeDigest =
      .next { s.loseLanes with
        bs := 0, phase := .idle, response := some ⟨.ok, memRead s.lanes 0 s.cfg.outlen.toNat⟩ } :=
  if_pos h

/-- A well-formed SQUEEZE outside phase READY is refused (R124). -/
theorem exec_squeeze_of_ne_ready {s : State} (h : s.phase ≠ .ready) :
    exec (.squeeze 0 []) s = Claims.answers s (if s.phase = .fault then .faulted else .badPhase) :=
  accept_of_not_legal () (fun _ => s.squeezeDigest) (by simpa using h)

/-- The digest fits the buffer (R8, R50). -/
theorem outlen_le_200 {c : Config} (h : outlenAdmissible c = true) : c.outlen.toNat ≤ 200 :=
  (outlen_le_byteRate h).trans (byteRate_le_200 c)

/-- Byte `k` of a block read from byte 0 is `S[k]` (R12). -/
theorem memRead_getElem? (A : Lanes) {n : Nat} (k : Fin 200) (h : k.val < n) :
    (memRead A 0 n)[k.val]? = some (byteAt A k) := by
  simp [memRead, h]

/-- Settles O39: the data is the first bytes of the buffer; afterwards the phase is IDLE, where SQUEEZE is refused. -/
theorem squeezeReturnsTheDigestOnce : Obligations.SqueezeReturnsTheDigestOnce := by
  refine ⟨fun s hphase hout => ?_, fun s hphase => exec_squeeze_of_ne_ready hphase, fun s arg payload hbad => ?_⟩
  · refine ⟨_, _, (exec_squeeze_of_ready hphase).trans (squeezeDigest_of_outlenAdmissible hout), rfl,
      memRead_length s.lanes (by simpa using outlen_le_200 hout), fun k hk => memRead_getElem? s.lanes k hk,
      rfl, rfl, rfl, rfl, ?_⟩
    exact exec_squeeze_of_ne_ready (by simp)
  · exact accept_of_operand_eq_none (noOperand_eq_none hbad) _ _ s

end Sys2Proof.Machine
end

section
/-! The sponge statements, KECCAK256: the commands of the expansion answered one after the other, and the lanes they leave
as the digest function computes them from the message. -/

namespace Sys2Proof.Machine

open Sys2Proof

/-! ### Actions answered OK one after the other -/

/-- The host's next actions from `s` are these, each is answered OK, and they lead to `t`. -/
inductive AnsweredOk : List HostAction → State → State → Prop where
  | nil (s : State) : AnsweredOk [] s s
  | cons {a : HostAction} {as : List HostAction} {s u t : State} (hhost : s.host = a :: u.host) (hstep : step s = .next u)
      (hok : codeOf (.next u) = some .ok) (hrest : AnsweredOk as u t) : AnsweredOk (a :: as) s t

theorem AnsweredOk.append {as bs : List HostAction} {s u t : State} (h : AnsweredOk as s u) (h' : AnsweredOk bs u t) :
    AnsweredOk (as ++ bs) s t := by
  induction h with
  | nil _ => exact h'
  | cons hhost hstep hok _ ih => exact .cons hhost hstep hok (ih h')

/-- The run of as many steps ends in the last state. -/
theorem AnsweredOk.run_length {as : List HostAction} {s t : State} (h : AnsweredOk as s t) :
    Claims.run as.length s = .next t := by
  induction h with
  | nil _ => rfl
  | cons _ hstep _ _ ih => rw [List.length_cons, run_succ_of_next _ hstep, ih]

/-- Every run of at least one and at most as many steps ends with an OK. -/
theorem AnsweredOk.codeOf_run {as : List HostAction} {s t : State} (h : AnsweredOk as s t) {n : Nat} (hpos : 1 ≤ n)
    (hle : n ≤ as.length) : codeOf (Claims.run n s) = some .ok := by
  induction h generalizing n with
  | nil _ => exact absurd (hpos.trans hle) (by simp)
  | cons _ hstep hok _ ih =>
    obtain ⟨m, rfl⟩ := Nat.exists_eq_add_of_le' hpos
    rw [run_succ_of_next m hstep]
    rcases Nat.eq_zero_or_pos m with rfl | hm
    · exact hok
    · exact ih hm (Nat.le_of_succ_le_succ hle)

/-- The word the host sends for a command decodes to it (R70, R80). -/
theorem decode_encode (i : Instr) : decode (encode i) i.payload = .ok i := decodeBytes_encodeBytes i

/-- A command that is sent and answers OK. -/
theorem answeredOk_send {i : Instr} {s t : State} {rest : List HostAction} {data : List Byte}
    (hhost : s.host = send i :: rest) (hexec : exec i { s with host := rest } = .next t)
    (hok : t.response = some ⟨.ok, data⟩) : AnsweredOk [send i] s t := by
  have hstep : step s = .next t := (step_eq_exec_of_decode hhost (decode_encode i)).trans hexec
  obtain ⟨-, hkept, -⟩ := exec_keeps_constants hexec
  refine .cons ?_ hstep ?_ (.nil t)
  · rw [hhost, hkept]
  · rw [codeOf, hok]
    rfl

/-! ### The commands of the expansion, in phase ABSORB -/

/-- The state in phase ABSORB between two commands of the expansion. -/
def State.absorbing (s : State) (A : Lanes) (bs : BitVec 8) (rest : List HostAction) : State :=
  { s with lanes := A, bs := bs, phase := .absorb, response := some ⟨.ok, []⟩, host := rest }

/-- What a whole block makes of the lanes (R120). -/
def absorbFull (A : Lanes) (block : List Byte) : Lanes := keccakF (xorWindow A block)

/-- INIT outside FAULT and under a valid configuration starts from zero lanes. -/
theorem answeredOk_init {s : State} {rest : List HostAction} (hvalid : configValid s.cfg = true)
    (hphase : s.phase ≠ .fault) (hhost : s.host = send (.init 0 []) :: rest) :
    AnsweredOk [send (.init 0 [])] s (s.absorbing (Claims.uniform 0) 0 rest) := by
  have hinit := exec_init_of_ne_fault (s := { s with host := rest }) hphase
  have hstart := initialise_of_valid (s := { s with host := rest }) hvalid
  exact answeredOk_send hhost (hinit.trans (congrArg _ hstart)) rfl

section
variable {s : State} {A : Lanes} {rest : List HostAction} {block : List Byte}

/-- The length of a block is its ARG: BYTE_RATE is below 256 (R125). -/
theorem toNat_ofNat_of_le_byteRate {c : Config} {n : Nat} (h : n ≤ c.byteRate) : (BitVec.ofNat 8 n).toNat = n := by
  have := byteRate_le_200 c
  rw [BitVec.toNat_ofNat]
  omega

/-- The ABSORB the host sends for a block that is not empty and not too long is well formed. -/
theorem wellFormed_absorb_of_length {c : Config} (hne : block ≠ []) (hle : block.length ≤ c.byteRate) :
    (Instr.absorb (BitVec.ofNat 8 block.length) block).wellFormed c = true := by
  rw [wellFormed_absorb_iff, toNat_ofNat_of_le_byteRate hle]
  exact ⟨List.length_pos_iff.mpr hne, hle, rfl⟩

/-- ABSORB of a block XORs it into the lanes, and permutes after a full one. -/
theorem exec_absorb_absorbing (hne : block ≠ []) (hle : block.length ≤ s.cfg.byteRate) :
    exec (.absorb (BitVec.ofNat 8 block.length) block) (s.absorbing A 0 rest) =
      .next (if block.length = s.cfg.byteRate then s.absorbing (absorbFull A block) 0 rest
        else s.absorbing (xorWindow A block) (BitVec.ofNat 8 block.length) rest) := by
  rw [exec_absorb_of_absorb (s := s.absorbing A 0 rest) rfl rfl (wellFormed_absorb_of_length hne hle),
    toNat_ofNat_of_le_byteRate hle]
  rfl

/-- ABSORB of a full block. -/
theorem answeredOk_fullBlock (hrate : s.cfg.byteRate ≠ 0) (hlen : block.length = s.cfg.byteRate) :
    AnsweredOk [sendBlock block] (s.absorbing A 0 (sendBlock block :: rest))
      (s.absorbing (absorbFull A block) 0 rest) := by
  have hne : block ≠ [] := fun hnil => hrate (by rw [← hlen, hnil, List.length_nil])
  exact answeredOk_send rfl ((exec_absorb_absorbing hne hlen.le).trans (congrArg _ (if_pos hlen))) rfl

/-- ABSORB of full blocks, one after the other. -/
theorem answeredOk_fullBlocks (hrate : s.cfg.byteRate ≠ 0) {blocks : List (List Byte)}
    (hlen : ∀ block ∈ blocks, block.length = s.cfg.byteRate) :
    AnsweredOk (blocks.map sendBlock) (s.absorbing A 0 (blocks.map sendBlock ++ rest))
      (s.absorbing (blocks.foldl absorbFull A) 0 rest) := by
  induction blocks generalizing A with
  | nil => exact .nil _
  | cons block blocks ih =>
    obtain ⟨hfirst, hothers⟩ := List.forall_mem_cons.mp hlen
    exact (answeredOk_fullBlock hrate hfirst).append (ih hothers)

/-- ABSORB of the partial block, or nothing when there is none: the lanes and BS are as if it had always been sent. -/
theorem answeredOk_partialBlock (hlt : block.length < s.cfg.byteRate) :
    AnsweredOk ((if block = [] then [] else [block]).map sendBlock)
      (s.absorbing A 0 ((if block = [] then [] else [block]).map sendBlock ++ rest))
      (s.absorbing (xorWindow A block) (BitVec.ofNat 8 block.length) rest) := by
  by_cases hnil : block = []
  · subst hnil
    rw [if_pos rfl, xorWindow_nil]
    exact .nil _
  · rw [if_neg hnil]
    exact answeredOk_send rfl ((exec_absorb_absorbing hnil hlt.le).trans (congrArg _ (if_neg hlt.ne))) rfl

/-! ### The padding -/

/-- The padding is the two bytes of R123, counted from the end of the message (R132). -/
theorem padding_getD (c : Config) {p k : Nat} (hp : p < c.byteRate) (hk : p ≤ k) :
    (padding c p).getD (k - p) 0 = (if k = p then c.suffix else 0) ^^^ (if k = c.byteRate - 1 then 0x80 else 0) := by
  by_cases hin : k - p < c.byteRate - p
  · have hfirst : k - p = 0 ↔ k = p := by omega
    have hlast : k - p + 1 = c.byteRate - p ↔ k = c.byteRate - 1 := by omega
    rw [List.getD_eq_getElem _ _ (by simpa [padding] using hin)]
    simp only [padding, List.getElem_map, List.getElem_range, hfirst, hlast]
  · rw [List.getD_eq_default _ _ (by simpa [padding] using hin), if_neg (by omega), if_neg (by omega)]
    rfl

/-- FINAL after a partial block is the XOR of the block with its padding (R123, R132). -/
theorem padLanes_xorWindow {c : Config} (A : Lanes) (hlt : block.length < c.byteRate) :
    padLanes c block.length (xorWindow A block) = some (xorWindow A (block ++ padding c block.length)) := by
  obtain ⟨A', hpad, hbytes⟩ := padLanes_spec c block.length (xorWindow A block) (hlt.trans_le (byteRate_le_200 c))
  suffices hA : A' = xorWindow A (block ++ padding c block.length) by rw [hpad, hA]
  refine lanes_ext fun k => ?_
  rw [hbytes, byteAt_xorWindow, byteAt_xorWindow]
  rcases Nat.lt_or_ge k.val block.length with hk | hk
  · rw [List.getD_append _ _ _ _ hk, if_neg (by omega), if_neg (by omega)]
    simp
  · rw [List.getD_append_right _ _ _ _ hk, padding_getD c hlt hk, List.getD_eq_default _ _ hk]
    simp

/-! ### FINAL and SQUEEZE of the expansion -/

/-- The state in phase READY after FINAL of the expansion. -/
def State.readyWith (s : State) (A : Lanes) (rest : List HostAction) : State :=
  { s with lanes := A, bs := 0, phase := .ready, response := some ⟨.ok, []⟩, host := rest }

/-- FINAL after the partial block absorbs the block with its padding. -/
theorem answeredOk_final (hlt : block.length < s.cfg.byteRate) :
    AnsweredOk [send (.final 0 [])]
      (s.absorbing (xorWindow A block) (BitVec.ofNat 8 block.length) (send (.final 0 []) :: rest))
      (s.readyWith (absorbFull A (block ++ padding s.cfg block.length)) rest) := by
  have hpad : padLanes s.cfg (BitVec.ofNat 8 block.length).toNat (xorWindow A block) =
      some (xorWindow A (block ++ padding s.cfg block.length)) := by
    rw [toNat_ofNat_of_le_byteRate hlt.le, padLanes_xorWindow A hlt]
  have hfinal := finalise_of_padLanes
    (s := s.absorbing (xorWindow A block) (BitVec.ofNat 8 block.length) rest) (Nat.ne_zero_of_lt hlt) hpad
  exact answeredOk_send rfl ((exec_final_of_absorb rfl).trans hfinal) rfl

/-- SQUEEZE returns the first OUTLEN bytes and ends the expansion. -/
theorem answeredOk_squeeze (hout : outlenAdmissible s.cfg = true) :
    ∃ t, AnsweredOk [send (.squeeze 0 [])] (s.readyWith A (send (.squeeze 0 []) :: rest)) t ∧
      t.response = some ⟨.ok, memRead A 0 s.cfg.outlen.toNat⟩ ∧ t.phase = .idle ∧ t.bs = 0 ∧ t.cfg = s.cfg ∧
      t.host = rest := by
  have hdigest := squeezeDigest_of_outlenAdmissible (s := s.readyWith A rest) hout
  exact ⟨_, answeredOk_send rfl ((exec_squeeze_of_ready rfl).trans hdigest) rfl, rfl, rfl, rfl, rfl, rfl⟩

end

/-! ### The digest as a function of the message -/

/-- Absorbing the first `n` blocks is absorbing block 0 to block `n - 1` in order. -/
theorem absorbBlocks_eq_foldl (r : Nat) (A : Lanes) (n : Nat) (bytes : List Byte) :
    absorbBlocks r A n bytes = ((List.range n).map fun j => messageBlock r j bytes).foldl absorbFull A := by
  induction n generalizing A bytes with
  | zero => rfl
  | succ n ih =>
    have hdrop (j : Nat) : messageBlock r j (bytes.drop r) = messageBlock r (j + 1) bytes := by
      rw [messageBlock, messageBlock, List.drop_drop, Nat.succ_mul, Nat.add_comm]
    have hfirst : messageBlock r 0 bytes = bytes.take r := by rw [messageBlock, Nat.zero_mul, List.drop_zero]
    rw [absorbBlocks, ih, List.range_succ_eq_map, List.map_cons, List.foldl_cons, List.map_map, hfirst]
    simp only [hdrop, absorbFull, Function.comp_def, Nat.succ_eq_add_one]

/-- The bytes of a message past its full blocks (R125). -/
def partialBlock (c : Config) (M : List Byte) : List Byte := M.drop (M.length / c.byteRate * c.byteRate)

theorem partialBlock_length (c : Config) (M : List Byte) : (partialBlock c M).length = M.length % c.byteRate := by
  rw [partialBlock, List.length_drop, Nat.mod_eq_sub_div_mul]

/-- The full blocks of a message (R125). -/
def fullBlocks (c : Config) (M : List Byte) : List (List Byte) :=
  (List.range (M.length / c.byteRate)).map fun j => messageBlock c.byteRate j M

/-- The block walk is the full blocks and the partial block, if it is not empty (R125). -/
theorem messageBlocks_eq (c : Config) (M : List Byte) :
    messageBlocks c M = fullBlocks c M ++ if partialBlock c M = [] then [] else [partialBlock c M] := by
  simp only [← List.length_eq_zero_iff (l := partialBlock c M), partialBlock_length]
  rfl

/-- A full block of a message ends inside it. -/
theorem full_block_end {L r j : Nat} (hj : j < L / r) : j * r + r ≤ L := by
  rw [← Nat.succ_mul]
  exact (Nat.mul_le_mul_right r hj).trans (Nat.div_mul_le_self L r)

theorem fullBlocks_length {c : Config} {M : List Byte} : ∀ block ∈ fullBlocks c M, block.length = c.byteRate := by
  intro block hmem
  obtain ⟨j, hj, rfl⟩ := List.mem_map.mp hmem
  have := full_block_end (List.mem_range.mp hj)
  rw [messageBlock, List.length_take, List.length_drop]
  omega

/-- The padding leaves the full blocks as they are. -/
theorem fullBlocks_append (c : Config) (M pad : List Byte) :
    (List.range (M.length / c.byteRate)).map (fun j => messageBlock c.byteRate j (M ++ pad)) = fullBlocks c M := by
  refine List.map_congr_left fun j hj => ?_
  have := full_block_end (List.mem_range.mp hj)
  rw [messageBlock, messageBlock, List.drop_append_of_le_length (by omega), List.take_append_of_le_length]
  rw [List.length_drop]
  omega

/-- The last block of the padded message is the partial block with its padding (R132). -/
theorem messageBlock_paddedMessage {c : Config} (hrate : c.byteRate ≠ 0) (M : List Byte) :
    messageBlock c.byteRate (M.length / c.byteRate) (paddedMessage c M) =
      partialBlock c M ++ padding c (partialBlock c M).length := by
  have hlt := Nat.mod_lt M.length (Nat.pos_of_ne_zero hrate)
  rw [messageBlock, paddedMessage, List.drop_append_of_le_length (Nat.div_mul_le_self _ _), partialBlock_length]
  refine List.take_of_length_le ?_
  rw [List.length_append, ← partialBlock, partialBlock_length]
  simp only [padding, List.length_map, List.length_range]
  omega

/-- The digest is read after the full blocks and the padded partial block, absorbed into zero lanes (R120). -/
theorem spongeDigest_eq {c : Config} (hrate : c.byteRate ≠ 0) (M : List Byte) :
    spongeDigest c M =
      memRead (absorbFull ((fullBlocks c M).foldl absorbFull (Claims.uniform 0))
        (partialBlock c M ++ padding c (partialBlock c M).length)) 0 c.outlen.toNat := by
  rw [spongeDigest, absorbBlocks_eq_foldl, List.range_succ, List.map_append, List.foldl_append, List.map_singleton,
    messageBlock_paddedMessage hrate, paddedMessage, fullBlocks_append]
  rfl

/-! ### The obligation -/

/-- An admissible configuration passes the check of INIT (R7, R8). -/
theorem configValid_of_admissible {c : Config} (h : configAdmissible c = true) : configValid c = true := by
  obtain ⟨hvalidAndRate, -⟩ := Bool.and_eq_true_iff.mp h
  obtain ⟨hvalid, -⟩ := Bool.and_eq_true_iff.mp hvalidAndRate
  exact hvalid

/-- Settles O40: the commands in their order, the full blocks by induction, against the digest block by block. -/
theorem keccak256ComputesTheSpongeDigest : Obligations.Keccak256ComputesTheSpongeDigest := by
  intro M s rest hadmissible hphase hhost
  have hvalid := configValid_of_admissible hadmissible
  have hrate := byteRate_ne_zero_of_admissible hadmissible
  have hlt : (partialBlock s.cfg M).length < s.cfg.byteRate := by
    rw [partialBlock_length]
    exact Nat.mod_lt _ (Nat.pos_of_ne_zero hrate)
  obtain ⟨t, hsqueeze, hresponse, hend⟩ := answeredOk_squeeze (s := s) (rest := rest)
    (A := absorbFull ((fullBlocks s.cfg M).foldl absorbFull (Claims.uniform 0))
      (partialBlock s.cfg M ++ padding s.cfg (partialBlock s.cfg M).length)) (outlenAdmissible_of_admissible hadmissible)
  have hanswered : AnsweredOk (keccak256Actions s.cfg M) s t := by
    have hlast := (answeredOk_partialBlock hlt).append ((answeredOk_final hlt).append hsqueeze)
    have hblocks := (answeredOk_fullBlocks hrate fullBlocks_length).append hlast
    rw [keccak256Actions, messageBlocks_eq, List.map_append] at hhost ⊢
    simp only [List.cons_append, List.append_assoc, List.nil_append] at hhost hblocks ⊢
    exact (answeredOk_init hvalid hphase hhost).append hblocks
  refine ⟨fun n hpos hle => hanswered.codeOf_run hpos hle, t, hanswered.run_length, ?_, hend⟩
  rw [hresponse, spongeDigest_eq hrate]

end Sys2Proof.Machine
end

section
/-! The digest and system statements (family 43_digest_and_system.md): the configuration along a run, and RDSTATUS, with
the two bytes of STATUS and the commands that phase FAULT shuts out. -/

namespace Sys2Proof.Machine

open Sys2Proof

/-! ### The configuration along a run -/

/-- A run of one step more that answers is a step that answers, and the run from there. -/
theorem run_succ_eq_next {n : Nat} {s t : State} (h : Claims.run (n + 1) s = .next t) :
    ∃ u, step s = .next u ∧ Claims.run n u = .next t := by
  cases hstep : step s with
  | next u => exact ⟨u, rfl, (run_succ_of_next n hstep).symm.trans h⟩
  | fault _ => cases (run_succ_of_fault n hstep).symm.trans h
  | refused _ => cases (run_succ_of_refused n hstep).symm.trans h

/-- No run writes the configuration (R142). -/
theorem run_keeps_cfg {n : Nat} {s t : State} (h : Claims.run n s = .next t) : t.cfg = s.cfg := by
  induction n generalizing s with
  | zero =>
    cases h
    rfl
  | succ n ih =>
    obtain ⟨u, hstep, hrun⟩ := run_succ_eq_next h
    exact (ih hrun).trans (step_keeps_cfg hstep)

/-- Settles O44, by induction on the number of steps, none of which writes the configuration. -/
theorem nothingWritesTheConfiguration : Obligations.NothingWritesTheConfiguration :=
  fun _ _ _ h => run_keeps_cfg h

/-! ### STATUS, byte by byte -/

/-- The low byte of STATUS is PHASE with zeros above it (R26). -/
theorem statusWord_low (s : State) : (statusWord s).extractLsb' 0 8 = (phaseCode s.phase).setWidth 8 := by
  calc (statusWord s).extractLsb' 0 8
      = (s.bs ++ (0 : BitVec 5) ++ phaseCode s.phase).setWidth (5 + 3) :=
        (BitVec.setWidth_eq_extractLsb' (by decide)).symm
    _ = (s.bs ++ (0 : BitVec 5)).setWidth 5 ++ (phaseCode s.phase).setWidth 3 := BitVec.setWidth_append_of_eq rfl
    _ = (0 : BitVec 5) ++ phaseCode s.phase := by rw [BitVec.setWidth_append_eq_right, BitVec.setWidth_eq]
    _ = (phaseCode s.phase).setWidth 8 := (BitVec.setWidth_eq_append (by decide)).symm

/-- The high byte of STATUS is BS (R26). -/
theorem statusWord_high (s : State) : (statusWord s).extractLsb' 8 8 = s.bs := by
  rw [statusWord, BitVec.extractLsb'_append_eq_of_le (by decide), BitVec.extractLsb'_append_eq_of_le (by decide)]
  exact BitVec.extractLsb'_eq_self

/-- RDSTATUS returns PHASE and then BS (R141). -/
theorem statusBytes_eq (s : State) : statusBytes s = [(phaseCode s.phase).setWidth 8, s.bs] := by
  rw [statusBytes, statusWord_low, statusWord_high]

/-! ### RDSTATUS and phase FAULT -/

/-- A well-formed RDSTATUS answers with STATUS in every phase (R141). -/
theorem exec_rdstatus (s : State) : exec (.rdstatus 0 []) s = .next (s.respond .ok (statusBytes s)) := rfl

/-- In phase FAULT no command but RDSTATUS is performed (R141, R166). -/
theorem eq_rdstatus_of_performed {i : Instr} {s : State} (hfault : s.phase = .fault) (hwf : i.wellFormed s.cfg = true)
    (hp : Performed i s) : i = .rdstatus 0 [] := by
  cases i with
  | theta _ _ | rhopi _ _ | chi _ _ | permute _ _ | rdstate _ _ | absorb _ _ | final _ _ | squeeze _ _ =>
    obtain ⟨hphase, -⟩ := hp
    cases hfault.symm.trans hphase
  | iota _ _ | round _ _ =>
    obtain ⟨_, -, hphase, -⟩ := hp
    cases hfault.symm.trans hphase
  | ldstate _ _ =>
    obtain ⟨_, -, hphase, -⟩ := hp
    exact absurd hfault hphase
  | init _ _ =>
    obtain ⟨hphase, -⟩ := hp
    exact absurd hfault hphase
  | rdstatus _ _ =>
    obtain ⟨rfl, rfl⟩ := wellFormed_rdstatus_iff.mp hwf
    rfl

/-- Settles O42: the answer is STATUS byte by byte; an OK in phase FAULT comes from a command performed there; the
invariant allows BS other than 0 in phase ABSORB only. -/
theorem rdstatusAnswersInEveryPhase : Obligations.RdstatusAnswersInEveryPhase := by
  refine ⟨fun s => ?_, fun s arg payload hbad => ?_, fun i s hfault hok => ?_, fun s hinv hbs => ?_⟩
  · rw [exec_rdstatus, statusBytes_eq]
    rfl
  · have hillFormed : (Instr.rdstatus arg payload).wellFormed s.cfg = false :=
      Bool.eq_false_iff.mpr (mt wellFormed_rdstatus_iff.mp hbad)
    exact exec_of_illFormed hillFormed
  · obtain ⟨hwf, hp⟩ := performed_of_codeOf_ok hok
    exact eq_rdstatus_of_performed hfault hwf hp
  · obtain ⟨hblock, -, -⟩ := hinv
    obtain ⟨habsorb, -⟩ := hblock.resolve_left hbs
    exact habsorb

end Sys2Proof.Machine
end

section
/-! The exception statements (family 60_exceptions.md): the phases a command is legal in, the cell of the phase table each
command answers with, the order of the causes, what a refusal leaves, and the configuration fault. -/

namespace Sys2Proof.Machine

open Sys2Proof

/-! ### The phases a command is legal in -/

/-- The phase, and for ABSORB the value of BS, a well-formed command needs to be performed (R163, R170). -/
def PhaseLegal (i : Instr) (s : State) : Prop :=
  match i with
  | .theta _ _ | .rhopi _ _ | .chi _ _ | .iota _ _ | .round _ _ | .permute _ _ | .rdstate _ _ => s.phase = .raw
  | .ldstate _ _ | .init _ _ => s.phase ≠ .fault
  | .absorb _ _ => s.phase = .absorb ∧ s.bs = 0
  | .final _ _ => s.phase = .absorb
  | .squeeze _ _ => s.phase = .ready
  | .rdstatus _ _ => True

/-- A well-formed RDSTATE has ARG 0 and no payload (R73, R74). -/
theorem wellFormed_rdstate_iff {c : Config} {a : Byte} {p : List Byte} :
    (Instr.rdstate a p).wellFormed c = true ↔ a = 0 ∧ p = [] := by
  simp [Instr.wellFormed, Instr.argLegal, Instr.requiredPayload, Instr.payload]

/-- A well-formed command in a phase that is not legal for it is refused, with FAULTED in phase FAULT and BAD_PHASE
elsewhere (R163). -/
theorem exec_of_not_phaseLegal {i : Instr} {s : State} (hwf : i.wellFormed s.cfg = true) (h : ¬PhaseLegal i s) :
    exec i s = Claims.answers s (if s.phase = .fault then .faulted else .badPhase) := by
  cases i with
  | theta _ _ | rhopi _ _ | chi _ _ | iota _ _ | round _ _ | permute _ _ => exact exec_engine_of_ne_raw rfl hwf h
  | ldstate _ p =>
    obtain ⟨rfl, hlen⟩ := wellFormed_ldstate_iff.mp hwf
    obtain ⟨B, rfl⟩ := exists_toList_eq_of_length hlen
    have hfault : s.phase = .fault := not_not.mp h
    rw [if_pos hfault]
    exact exec_ldstate_of_fault B hfault
  | rdstate _ _ =>
    obtain ⟨rfl, rfl⟩ := wellFormed_rdstate_iff.mp hwf
    exact exec_rdstate_of_ne_raw h
  | init _ _ =>
    obtain ⟨rfl, rfl⟩ := wellFormed_init_iff.mp hwf
    have hfault : s.phase = .fault := not_not.mp h
    rw [if_pos hfault]
    exact accept_faulted () true (fun _ => .next s.initialise) hfault
  | absorb _ _ => exact exec_absorb_of_not_legal hwf (not_and_or.mp h)
  | final _ _ =>
    obtain ⟨rfl, rfl⟩ := wellFormed_final_iff.mp hwf
    exact exec_final_of_ne_absorb h
  | squeeze _ _ =>
    obtain ⟨rfl, rfl⟩ := wellFormed_squeeze_iff.mp hwf
    exact exec_squeeze_of_ne_ready h
  | rdstatus _ _ => exact absurd trivial h

/-- In phase FAULT no command but RDSTATUS is legal (R166). -/
theorem not_phaseLegal_of_fault {i : Instr} {s : State} (hfault : s.phase = .fault) (hop : i.opcode ≠ 0x40) :
    ¬PhaseLegal i s := by
  cases i with
  | rdstatus _ _ => exact absurd rfl hop
  | theta _ _ | rhopi _ _ | chi _ _ | iota _ _ | round _ _ | permute _ _ | ldstate _ _ | rdstate _ _ | init _ _
  | absorb _ _ | final _ _ | squeeze _ _ => simp [PhaseLegal, hfault]

/-- In phase FAULT a well-formed command but RDSTATUS is refused with FAULTED (R166). -/
theorem exec_of_fault {i : Instr} {s : State} (hfault : s.phase = .fault) (hwf : i.wellFormed s.cfg = true)
    (hop : i.opcode ≠ 0x40) : exec i s = Claims.answers s .faulted := by
  rw [exec_of_not_phaseLegal hwf (not_phaseLegal_of_fault hfault hop), if_pos hfault]

/-- The codes of the refused commands (R164). -/
def IsRefusal (code : RespCode) : Prop :=
  code = .illegalCmd ∨ code = .badArg ∨ code = .badPhase ∨ code = .faulted

/-- The refusal of a command in a phase that is not legal for it. -/
theorem isRefusal_of_phase (p : Phase) : IsRefusal (if p = .fault then .faulted else .badPhase) := by
  split_ifs
  · exact .inr (.inr (.inr rfl))
  · exact .inr (.inr (.inl rfl))

/-- A command is refused, or it is well formed and its phase legal. -/
theorem refused_or_phaseLegal (i : Instr) (s : State) :
    (∃ code, IsRefusal code ∧ exec i s = Claims.answers s code) ∨ (i.wellFormed s.cfg = true ∧ PhaseLegal i s) := by
  cases hwf : i.wellFormed s.cfg with
  | false => exact .inl ⟨.badArg, .inr (.inl rfl), exec_of_illFormed hwf⟩
  | true =>
    by_cases hlegal : PhaseLegal i s
    · exact .inr ⟨rfl, hlegal⟩
    · exact .inl ⟨_, isRefusal_of_phase s.phase, exec_of_not_phaseLegal hwf hlegal⟩

/-! ### The phase table -/

/-- In a phase that is not legal the table refuses and keeps the phase. -/
theorem phaseTable_of_not_phaseLegal {i : Instr} {s : State} (h : ¬PhaseLegal i s) (valid : Bool) :
    Claims.phaseTable i s.phase valid (s.bs == 0) =
      (if s.phase = .fault then .faulted else .badPhase, s.phase) := by
  cases i with
  | theta _ _ | rhopi _ _ | chi _ _ | iota _ _ | round _ _ | permute _ _ | rdstate _ _ =>
    cases hphase : s.phase with
    | raw => exact absurd hphase h
    | idle | absorb | ready | fault => rfl
  | ldstate _ _ | init _ _ =>
    rw [not_not.mp h]
    rfl
  | absorb _ _ =>
    cases hphase : s.phase with
    | absorb =>
      have hbs : (s.bs == 0) = false := beq_eq_false_iff_ne.mpr fun hzero => h ⟨hphase, hzero⟩
      rw [hbs]
      rfl
    | idle | raw | ready | fault => rfl
  | final _ _ =>
    cases hphase : s.phase with
    | absorb => exact absurd hphase h
    | idle | raw | ready | fault => rfl
  | squeeze _ _ =>
    cases hphase : s.phase with
    | ready => exact absurd hphase h
    | idle | raw | absorb | fault => rfl
  | rdstatus _ _ => exact absurd trivial h

/-- The cell of the table in a phase that is legal for the command (R170). -/
def performedCell (i : Instr) (p : Phase) (valid : Bool) : RespCode × Phase :=
  match i with
  | .theta _ _ | .rhopi _ _ | .chi _ _ | .iota _ _ | .round _ _ | .permute _ _ | .rdstate _ _ | .ldstate _ _ =>
    (.ok, .raw)
  | .init _ _ => if valid then (.ok, .absorb) else (.configFault, .fault)
  | .absorb _ _ => (.ok, .absorb)
  | .final _ _ => (.ok, .ready)
  | .squeeze _ _ => (.ok, .idle)
  | .rdstatus _ _ => (.ok, p)

theorem phaseTable_of_phaseLegal {i : Instr} {s : State} (h : PhaseLegal i s) (valid : Bool) :
    Claims.phaseTable i s.phase valid (s.bs == 0) = performedCell i s.phase valid := by
  cases i with
  | theta _ _ | rhopi _ _ | chi _ _ | iota _ _ | round _ _ | permute _ _ | rdstate _ _ | final _ _ | squeeze _ _ =>
    rw [show s.phase = _ from h]
    rfl
  | ldstate _ _ | init _ _ =>
    cases hphase : s.phase with
    | fault => exact absurd hphase h
    | idle | raw | absorb | ready => rfl
  | absorb _ _ =>
    obtain ⟨hphase, hbs⟩ := h
    rw [hphase, hbs]
    rfl
  | rdstatus _ _ => rfl

/-- A command in a legal phase answers OK, but INIT under an invalid configuration CONFIG_FAULT. -/
theorem performedCell_code (i : Instr) (p : Phase) (valid : Bool) :
    (performedCell i p valid).1 = if i.opcode = 0x30 ∧ valid = false then .configFault else .ok := by
  cases i with
  | init _ _ => cases valid <;> rfl
  | theta _ _ | rhopi _ _ | chi _ _ | iota _ _ | round _ _ | permute _ _ | ldstate _ _ | rdstate _ _ | absorb _ _
  | final _ _ | squeeze _ _ | rdstatus _ _ => rfl

/-! ### What a command that answers has done, by the table -/

/-- The state holds a response with the code of the cell, and is in the phase of the cell. -/
def MeetsCell (t : State) (cell : RespCode × Phase) : Prop :=
  (∃ data, t.response = some ⟨cell.1, data⟩) ∧ t.phase = cell.2

/-- INIT takes the fault under an invalid configuration (R165). -/
theorem initialise_of_invalid {s : State} (h : configValid s.cfg = false) : s.initialise = s.raiseConfigFault := by
  simp [State.initialise, h]

/-- INIT answers by the validity of the configuration (R121, R165). -/
theorem initialise_meetsCell (s : State) (a : Byte) (p : List Byte) :
    MeetsCell s.initialise (performedCell (.init a p) s.phase (configValid s.cfg)) := by
  cases hvalid : configValid s.cfg with
  | true =>
    rw [initialise_of_valid hvalid]
    exact ⟨⟨_, rfl⟩, rfl⟩
  | false =>
    rw [initialise_of_invalid hvalid]
    exact ⟨⟨_, rfl⟩, rfl⟩

/-- A well-formed command in a legal phase that answers has done what the table says. -/
theorem meetsCell_of_phaseLegal {i : Instr} {s t : State} (hwf : i.wellFormed s.cfg = true) (h : PhaseLegal i s)
    (hnext : exec i s = .next t) : MeetsCell t (performedCell i s.phase (configValid s.cfg)) := by
  cases i with
  | theta _ _ | rhopi _ _ | chi _ _ | iota _ _ | round _ _ | permute _ _ =>
    obtain ⟨f, hexec⟩ := exec_engine_eq_rawStep rfl hwf
    cases (hexec.trans (rawStep_raw () _ h)).symm.trans hnext
    exact ⟨⟨_, rfl⟩, h⟩
  | ldstate _ _ =>
    obtain ⟨rfl, hlen⟩ := wellFormed_ldstate_iff.mp hwf
    obtain ⟨B, rfl⟩ := exists_toList_eq_of_length hlen
    cases (exec_ldstate_of_ne_fault B h).symm.trans hnext
    exact ⟨⟨_, rfl⟩, rfl⟩
  | rdstate _ _ =>
    obtain ⟨rfl, rfl⟩ := wellFormed_rdstate_iff.mp hwf
    cases (exec_rdstate_of_raw h).symm.trans hnext
    exact ⟨⟨_, rfl⟩, h⟩
  | init _ _ =>
    obtain ⟨rfl, rfl⟩ := wellFormed_init_iff.mp hwf
    cases (exec_init_of_ne_fault h).symm.trans hnext
    exact initialise_meetsCell s 0 []
  | absorb _ _ =>
    obtain ⟨hphase, hbs⟩ := h
    cases (exec_absorb_of_absorb hphase hbs hwf).symm.trans hnext
    split_ifs
    · exact ⟨⟨_, rfl⟩, hphase⟩
    · exact ⟨⟨_, rfl⟩, hphase⟩
  | final _ _ =>
    obtain ⟨rfl, rfl⟩ := wellFormed_final_iff.mp hwf
    obtain ⟨_, rfl⟩ := finalise_next ((exec_final_of_absorb h).symm.trans hnext)
    exact ⟨⟨_, rfl⟩, rfl⟩
  | squeeze _ _ =>
    obtain ⟨rfl, rfl⟩ := wellFormed_squeeze_iff.mp hwf
    obtain rfl := squeezeDigest_next ((exec_squeeze_of_ready h).symm.trans hnext)
    exact ⟨⟨_, rfl⟩, rfl⟩
  | rdstatus _ _ =>
    obtain ⟨rfl, rfl⟩ := wellFormed_rdstatus_iff.mp hwf
    cases (exec_rdstatus s).symm.trans hnext
    exact ⟨⟨_, rfl⟩, rfl⟩

/-- A well-formed command that answers has done what the table says, in every phase (R170). -/
theorem meetsCell_of_wellFormed {i : Instr} {s t : State} (hwf : i.wellFormed s.cfg = true)
    (hnext : exec i s = .next t) : MeetsCell t (Claims.phaseTable i s.phase (configValid s.cfg) (s.bs == 0)) := by
  by_cases hlegal : PhaseLegal i s
  · rw [phaseTable_of_phaseLegal hlegal]
    exact meetsCell_of_phaseLegal hwf hlegal hnext
  · cases (exec_of_not_phaseLegal hwf hlegal).symm.trans hnext
    rw [phaseTable_of_not_phaseLegal hlegal]
    exact ⟨⟨_, rfl⟩, rfl⟩

/-- Settles O12: each command has done what the table says if it answers, and under the premises it does. -/
theorem phaseTableHolds : Obligations.PhaseTableHolds := by
  refine ⟨fun i s hinv hcovered hwf => ?_, fun s rest hhost => ⟨_, step_of_reset hhost, rfl⟩⟩
  obtain ⟨t, hnext⟩ := exec_answers hinv hcovered i
  obtain ⟨⟨data, hresponse⟩, hphase⟩ := meetsCell_of_wellFormed hwf hnext
  exact ⟨t, data, hnext, hresponse, hphase⟩

/-! ### The order of the causes -/

/-- A refusal reports its code. -/
theorem codeOf_answers (s : State) (code : RespCode) : codeOf (Claims.answers s code) = some code := rfl

/-- INIT outside FAULT takes the fault under an invalid configuration (R165). -/
theorem exec_init_of_invalid {s : State} (hphase : s.phase ≠ .fault) (hinvalid : configValid s.cfg = false) :
    exec (.init 0 []) s = .next s.raiseConfigFault := by
  rw [exec_init_of_ne_fault hphase, initialise_of_invalid hinvalid]

/-- The table answers BAD_PHASE only in a phase that is not legal. -/
theorem not_phaseLegal_of_badPhase {i : Instr} {s : State} {valid : Bool}
    (h : (Claims.phaseTable i s.phase valid (s.bs == 0)).1 = .badPhase) : ¬PhaseLegal i s := by
  intro hlegal
  rw [phaseTable_of_phaseLegal hlegal, performedCell_code] at h
  split_ifs at h

/-- Settles O14: the illegal word is refused by the decoder, the ill-formed command by its operand, and each further cause
is what the checks before a command answer. -/
theorem firstCauseIsTheResponse : Obligations.FirstCauseIsTheResponse := by
  intro s w payload rest hhost _ _
  refine ⟨fun hillegal => ?_, fun i hdecode => ?_⟩
  · rw [step_of_decode_error hhost (decode_of_illegal hillegal payload)]
    rfl
  rw [step_eq_exec_of_decode hhost hdecode]
  refine ⟨fun hbad => ?_, fun hwf hfault hop => ?_, fun hwf hphase hcell => ?_, fun hwf hphase hop hinvalid => ?_⟩
  · rw [exec_of_illFormed (s := { s with host := rest }) hbad, codeOf_answers]
  · rw [exec_of_fault (s := { s with host := rest }) hfault hwf hop, codeOf_answers]
  · have hlegal := not_phaseLegal_of_badPhase (s := { s with host := rest }) hcell
    rw [exec_of_not_phaseLegal (s := { s with host := rest }) hwf hlegal, if_neg hphase, codeOf_answers]
  · rw [eq_of_opcode (command := .init) hop rfl] at hwf ⊢
    obtain ⟨harg, hpayload⟩ := wellFormed_init_iff.mp hwf
    rw [harg, hpayload, exec_init_of_invalid (s := { s with host := rest }) hphase hinvalid]
    rfl

/-! ### Refusals leave no trace -/

/-- No cell of a legal phase is a refusal. -/
theorem not_isRefusal_performedCell (i : Instr) (p : Phase) (valid : Bool) :
    ¬IsRefusal (performedCell i p valid).1 := by
  rw [performedCell_code]
  split_ifs <;> simp [IsRefusal]

/-- A command that responds with the code of a refusal was refused. -/
theorem eq_answers_of_isRefusal {i : Instr} {s t : State} {r : Response} (hnext : exec i s = .next t)
    (hr : t.response = some r) (hcode : IsRefusal r.code) : ∃ code, exec i s = Claims.answers s code := by
  rcases refused_or_phaseLegal i s with ⟨code, -, hrefused⟩ | ⟨hwf, hlegal⟩
  · exact ⟨code, hrefused⟩
  · obtain ⟨⟨_, hresponse⟩, -⟩ := meetsCell_of_phaseLegal hwf hlegal hnext
    cases hr.symm.trans hresponse
    exact absurd hcode (not_isRefusal_performedCell i _ _)

/-- Settles O15: a step answered with such a code is a refusal, and no command reads the response a state holds. -/
theorem refusedCommandsLeaveNoTrace : Obligations.RefusedCommandsLeaveNoTrace := by
  intro s t w payload rest r hhost hstep hr hcode
  have hrefused : ∃ code, step s = Claims.answers { s with host := rest } code := by
    cases hdecode : decode w payload with
    | error e => exact ⟨_, step_of_decode_error hhost hdecode⟩
    | ok i =>
      rw [step_eq_exec_of_decode hhost hdecode] at hstep ⊢
      exact eq_answers_of_isRefusal hstep hr hcode
  obtain ⟨code, hanswers⟩ := hrefused
  cases hanswers.symm.trans hstep
  cases hr
  exact ⟨rfl, rfl, fun j => exec_of_response j { s with host := rest } _⟩

/-! ### The configuration fault -/

/-- A result with a code is a next state that responds with that code. -/
theorem response_of_codeOf {r : Result} {code : RespCode} (h : codeOf r = some code) :
    ∃ t data, r = .next t ∧ t.response = some ⟨code, data⟩ := by
  cases r with
  | next t =>
    obtain ⟨⟨_, data⟩, hresponse, rfl⟩ := Option.map_eq_some_iff.mp h
    exact ⟨t, data, rfl, hresponse⟩
  | fault _ | refused _ => nomatch h

/-- A command that responds CONFIG_FAULT is INIT outside FAULT under an invalid configuration. -/
theorem eq_init_of_configFault {i : Instr} {s : State} (h : codeOf (exec i s) = some .configFault) :
    i = .init 0 [] ∧ s.phase ≠ .fault ∧ configValid s.cfg = false := by
  rcases refused_or_phaseLegal i s with ⟨code, hcode, hrefused⟩ | ⟨hwf, hlegal⟩
  · rw [hrefused, codeOf_answers, Option.some.injEq] at h
    simp [h, IsRefusal] at hcode
  · obtain ⟨t, data, hnext, hresponse⟩ := response_of_codeOf h
    obtain ⟨⟨_, hcell⟩, -⟩ := meetsCell_of_phaseLegal hwf hlegal hnext
    have hcode : RespCode.configFault = _ := congrArg Response.code (Option.some.inj (hresponse.symm.trans hcell))
    rw [performedCell_code] at hcode
    obtain ⟨hop, hinvalid⟩ : i.opcode = 0x30 ∧ configValid s.cfg = false := by
      by_contra hnot
      rw [if_neg hnot] at hcode
      cases hcode
    rw [eq_of_opcode (command := .init) hop rfl] at hwf hlegal ⊢
    obtain ⟨harg, hpayload⟩ := wellFormed_init_iff.mp hwf
    exact ⟨by rw [harg, hpayload], hlegal, hinvalid⟩

/-- Under an invalid configuration the invariant leaves phases IDLE, RAW and FAULT, with BS 0 (R24, R165). -/
theorem idle_or_raw_of_invalid {s : State} (hinv : Inv s) (hinvalid : configValid s.cfg = false)
    (hphase : s.phase ≠ .fault) : (s.phase = .idle ∨ s.phase = .raw) ∧ s.bs = 0 := by
  obtain ⟨hbs, ⟨hsponge, -⟩, -⟩ := hinv
  have hnot : ¬(s.phase = .absorb ∨ s.phase = .ready) := fun h => by simp [hsponge h] at hinvalid
  refine ⟨?_, hbs.resolve_right fun ⟨habsorb, _⟩ => hnot (.inl habsorb)⟩
  cases hp : s.phase with
  | idle => exact .inl rfl
  | raw => exact .inr rfl
  | absorb => exact absurd (.inl hp) hnot
  | ready => exact absurd (.inr hp) hnot
  | fault => exact absurd hp hphase

/-- Settles O16: INIT performed under an invalid configuration raises the fault and nothing else does; the invariant gives
the phase and BS, and STATUS is PHASE and then BS. -/
theorem configFaultEntry : Obligations.ConfigFaultEntry := by
  refine ⟨fun s hphase hinvalid => exec_init_of_invalid hphase hinvalid, fun i s hinv hcode => ?_⟩
  obtain ⟨rfl, hphase, hinvalid⟩ := eq_init_of_configFault hcode
  obtain ⟨hentry, hbs⟩ := idle_or_raw_of_invalid hinv hinvalid hphase
  refine ⟨rfl, hentry, hbs, _, _, exec_init_of_invalid hphase hinvalid, exec_rdstatus _, ?_⟩
  rw [State.respond_response, statusBytes_eq, State.raiseConfigFault_phase, State.raiseConfigFault_bs, hbs]
  rfl

/-- No command leaves phase FAULT (R166). -/
theorem exec_keeps_fault {i : Instr} {s t : State} (hfault : s.phase = .fault) (hnext : exec i s = .next t) :
    t.phase = .fault := by
  rcases refused_or_phaseLegal i s with ⟨_, -, hrefused⟩ | ⟨-, hlegal⟩
  · cases hrefused.symm.trans hnext
    exact hfault
  · have hop : i.opcode = 0x40 := by_contra fun hne => not_phaseLegal_of_fault hfault hne hlegal
    rw [exec_read_frame (.inr hop) hnext]
    exact hfault

/-- Settles O17: the checks refuse every command but RDSTATUS, which writes the response only; after a reset INIT finds the
configuration invalid again. -/
theorem onlyResetLeavesFault : Obligations.OnlyResetLeavesFault := by
  refine ⟨fun i s hfault hwf hop => exec_of_fault hfault hwf hop, fun s t w payload rest hfault hhost hstep => ?_,
    fun s rest _ hhost => ⟨_, step_of_reset hhost, rfl⟩, fun s rest hinvalid hhost => ?_⟩
  · cases hdecode : decode w payload with
    | error e =>
      cases (step_of_decode_error hhost hdecode).symm.trans hstep
      exact hfault
    | ok i =>
      rw [step_eq_exec_of_decode hhost hdecode] at hstep
      exact exec_keeps_fault (s := { s with host := rest }) hfault hstep
  · have hinit := exec_init_of_invalid (s := { s.applyReset with host := rest }) nofun hinvalid
    have hstep := (step_eq_exec_of_decode (s := { s with host := send (.init 0 []) :: rest }.applyReset) rfl
      (decode_encode (.init 0 []))).trans hinit
    exact ⟨_, (run_succ_of_next 1 (step_of_reset hhost)).trans (run_succ_of_next 0 hstep), rfl, rfl⟩

/-- Settles O5, by the rule for a step without an action of the host. -/
theorem idleEngineKeepsItsState : Obligations.IdleEngineKeepsItsState :=
  fun _ h => step_of_host_nil h

end Sys2Proof.Machine
end

section
/-! The exception statements, acceptance: two commands with the same word and payload length, in two states with the same
PHASE, BS and configuration, are decided alike. -/

namespace Sys2Proof.Machine

open Sys2Proof

/-! ### Commands with the same word -/

/-- The command with another payload. -/
def withPayload (i : Instr) (q : List Byte) : Instr :=
  match i with
  | .theta a _ => .theta a q
  | .rhopi a _ => .rhopi a q
  | .chi a _ => .chi a q
  | .iota a _ => .iota a q
  | .round a _ => .round a q
  | .permute a _ => .permute a q
  | .ldstate a _ => .ldstate a q
  | .rdstate a _ => .rdstate a q
  | .init a _ => .init a q
  | .absorb a _ => .absorb a q
  | .final a _ => .final a q
  | .squeeze a _ => .squeeze a q
  | .rdstatus a _ => .rdstatus a q

/-- Commands with the same word differ in the payload only (R70, R73). -/
theorem eq_withPayload_of_encode_eq {i j : Instr} (h : encode i = encode j) : j = withPayload i j.payload := by
  have hop : j.opcode = i.opcode := by
    simpa [encode, Laws.opField_append] using (congrArg opField h).symm
  have harg : j.arg = i.arg := by
    simpa [encode, Laws.argField_append] using (congrArg argField h).symm
  cases i <;> exact (eq_of_opcode hop rfl).trans (by rw [harg]; rfl)

/-- Whether a command is well formed depends on the payload's length only (R74). -/
theorem wellFormed_withPayload (c : Config) {i : Instr} {q : List Byte} (h : i.payload.length = q.length) :
    (withPayload i q).wellFormed c = i.wellFormed c := by
  cases i <;> exact congrArg (fun n => _ && n == _) h.symm

/-- Whether a phase is legal for a command does not depend on the payload, the lanes and the rest of the state. -/
theorem phaseLegal_withPayload (i : Instr) (q : List Byte) {s u : State} (hphase : s.phase = u.phase) (hbs : s.bs = u.bs) :
    PhaseLegal (withPayload i q) u ↔ PhaseLegal i s := by
  cases i <;> simp only [PhaseLegal, withPayload, hphase, hbs]

/-! ### Answers that agree on code, PHASE and BS -/

/-- Two answers report the same code, and next states with the same PHASE and BS. -/
def SameControl (p q : Result) : Prop :=
  codeOf p = codeOf q ∧ ∀ t v, p = .next t → q = .next v → t.phase = v.phase ∧ t.bs = v.bs

/-- The state holds a response with this code, and this PHASE and BS. -/
def HasControl (t : State) (code : RespCode) (p : Phase) (b : BitVec 8) : Prop :=
  (∃ data, t.response = some ⟨code, data⟩) ∧ t.phase = p ∧ t.bs = b

/-- Through the three values: a comparison of the two states would compare their lanes. -/
theorem SameControl.next (code : RespCode) (p : Phase) (b : BitVec 8) {t v : State} (ht : HasControl t code p b)
    (hv : HasControl v code p b) : SameControl (.next t) (.next v) := by
  obtain ⟨⟨_, ht⟩, rfl, rfl⟩ := ht
  obtain ⟨⟨_, hv⟩, hphase, hbs⟩ := hv
  refine ⟨by simp [codeOf, ht, hv], ?_⟩
  rintro _ _ ⟨⟩ ⟨⟩
  exact ⟨hphase.symm, hbs.symm⟩

theorem SameControl.fault (r : Fault) : SameControl (.fault r) (.fault r) := ⟨rfl, fun _ _ h => nomatch h⟩

theorem SameControl.refused (r : Refusal) : SameControl (.refused r) (.refused r) := ⟨rfl, fun _ _ h => nomatch h⟩

/-- A response with the same code to both. -/
theorem respond_sameControl {s u : State} (hphase : s.phase = u.phase) (hbs : s.bs = u.bs) (code : RespCode)
    (data data' : List Byte) : SameControl (.next (s.respond code data)) (.next (u.respond code data')) :=
  .next code s.phase s.bs ⟨⟨_, rfl⟩, rfl, rfl⟩ ⟨⟨_, rfl⟩, hphase.symm, hbs.symm⟩

/-- INIT decides by the configuration (R121). -/
theorem initialise_sameControl {s u : State} (hbs : s.bs = u.bs) (hcfg : s.cfg = u.cfg) :
    SameControl (.next s.initialise) (.next u.initialise) := by
  cases hvalid : configValid s.cfg with
  | true =>
    rw [initialise_of_valid hvalid, initialise_of_valid (hcfg ▸ hvalid)]
    exact .next .ok .absorb 0 ⟨⟨_, rfl⟩, rfl, rfl⟩ ⟨⟨_, rfl⟩, rfl, rfl⟩
  | false =>
    rw [initialise_of_invalid hvalid, initialise_of_invalid (hcfg ▸ hvalid)]
    exact .next .configFault .fault s.bs ⟨⟨_, rfl⟩, rfl, rfl⟩ ⟨⟨_, rfl⟩, rfl, hbs.symm⟩

/-- FINAL decides by BYTE_RATE, and by whether BS is inside the buffer (R50, R123). -/
theorem finalise_sameControl {s u : State} (hbs : s.bs = u.bs) (hcfg : s.cfg = u.cfg) :
    SameControl s.finalise u.finalise := by
  by_cases hrate : s.cfg.byteRate = 0
  · rw [finalise_of_byteRate_eq_zero hrate, finalise_of_byteRate_eq_zero (hcfg ▸ hrate)]
    exact .refused _
  · rcases Nat.lt_or_ge s.bs.toNat 200 with hin | hout
    · obtain ⟨A, hs, -⟩ := padLanes_spec s.cfg s.bs.toNat s.lanes hin
      obtain ⟨B, hu, -⟩ := padLanes_spec u.cfg u.bs.toNat u.lanes (hbs ▸ hin)
      rw [finalise_of_padLanes hrate hs, finalise_of_padLanes (hcfg ▸ hrate) hu]
      exact .next .ok .ready 0 ⟨⟨_, rfl⟩, rfl, rfl⟩ ⟨⟨_, rfl⟩, rfl, rfl⟩
    · rw [finalise_of_200_le_bs hrate hout, finalise_of_200_le_bs (hcfg ▸ hrate) (hbs ▸ hout)]
      exact .fault _

/-- SQUEEZE decides by OUTLEN and BYTE_RATE (R8, R124). -/
theorem squeezeDigest_sameControl {s u : State} (hcfg : s.cfg = u.cfg) :
    SameControl s.squeezeDigest u.squeezeDigest := by
  cases hout : outlenAdmissible s.cfg with
  | true =>
    rw [squeezeDigest_of_outlenAdmissible hout, squeezeDigest_of_outlenAdmissible (hcfg ▸ hout)]
    exact .next .ok .idle 0 ⟨⟨_, rfl⟩, rfl, rfl⟩ ⟨⟨_, rfl⟩, rfl, rfl⟩
  | false =>
    rw [squeezeDigest_of_not_outlenAdmissible hout, squeezeDigest_of_not_outlenAdmissible (hcfg ▸ hout)]
    exact .refused _

/-! ### The commands -/

/-- Performed commands with the same word and payload length decide alike: none by the payload bytes or the lanes. -/
theorem exec_sameControl_of_phaseLegal {i : Instr} {q : List Byte} {s u : State} (hlen : i.payload.length = q.length)
    (hphase : s.phase = u.phase) (hbs : s.bs = u.bs) (hcfg : s.cfg = u.cfg) (hwf : i.wellFormed s.cfg = true)
    (h : PhaseLegal i s) : SameControl (exec i s) (exec (withPayload i q) u) := by
  have hwf' : (withPayload i q).wellFormed u.cfg = true := by rw [wellFormed_withPayload u.cfg hlen, ← hcfg, hwf]
  have h' : PhaseLegal (withPayload i q) u := (phaseLegal_withPayload i q hphase hbs).mpr h
  cases i with
  | theta _ _ | rhopi _ _ | chi _ _ | iota _ _ | round _ _ | permute _ _ =>
    obtain ⟨f, hs⟩ := exec_engine_eq_rawStep rfl hwf
    obtain ⟨g, hu⟩ := exec_engine_eq_rawStep rfl hwf'
    rw [hs, hu, rawStep_raw () _ h, rawStep_raw () _ h']
    exact .next .ok s.phase s.bs ⟨⟨_, rfl⟩, rfl, rfl⟩ ⟨⟨_, rfl⟩, hphase.symm, hbs.symm⟩
  | ldstate _ _ =>
    obtain ⟨rfl, hp⟩ := wellFormed_ldstate_iff.mp hwf
    obtain ⟨-, hq⟩ := wellFormed_ldstate_iff.mp hwf'
    obtain ⟨B, rfl⟩ := exists_toList_eq_of_length hp
    obtain ⟨C, rfl⟩ := exists_toList_eq_of_length hq
    rw [withPayload, exec_ldstate_of_ne_fault B h, exec_ldstate_of_ne_fault C h']
    exact .next .ok .raw 0 ⟨⟨_, rfl⟩, rfl, rfl⟩ ⟨⟨_, rfl⟩, rfl, rfl⟩
  | rdstate _ _ =>
    obtain ⟨rfl, rfl⟩ := wellFormed_rdstate_iff.mp hwf
    obtain ⟨-, rfl⟩ := wellFormed_rdstate_iff.mp hwf'
    rw [withPayload, exec_rdstate_of_raw h, exec_rdstate_of_raw h']
    exact respond_sameControl hphase hbs .ok _ _
  | init _ _ =>
    obtain ⟨rfl, rfl⟩ := wellFormed_init_iff.mp hwf
    obtain ⟨-, rfl⟩ := wellFormed_init_iff.mp hwf'
    rw [withPayload, exec_init_of_ne_fault h, exec_init_of_ne_fault h']
    exact initialise_sameControl hbs hcfg
  | absorb _ _ =>
    obtain ⟨hs, hzero⟩ := h
    obtain ⟨hu, hzero'⟩ := h'
    rw [withPayload, exec_absorb_of_absorb hs hzero hwf, exec_absorb_of_absorb hu hzero' hwf', hcfg]
    split_ifs
    · exact .next .ok s.phase 0 ⟨⟨_, rfl⟩, rfl, rfl⟩ ⟨⟨_, rfl⟩, hphase.symm, rfl⟩
    · exact .next .ok s.phase _ ⟨⟨_, rfl⟩, rfl, rfl⟩ ⟨⟨_, rfl⟩, hphase.symm, rfl⟩
  | final _ _ =>
    obtain ⟨rfl, rfl⟩ := wellFormed_final_iff.mp hwf
    obtain ⟨-, rfl⟩ := wellFormed_final_iff.mp hwf'
    rw [withPayload, exec_final_of_absorb h, exec_final_of_absorb h']
    exact finalise_sameControl hbs hcfg
  | squeeze _ _ =>
    obtain ⟨rfl, rfl⟩ := wellFormed_squeeze_iff.mp hwf
    obtain ⟨-, rfl⟩ := wellFormed_squeeze_iff.mp hwf'
    rw [withPayload, exec_squeeze_of_ready h, exec_squeeze_of_ready h']
    exact squeezeDigest_sameControl hcfg
  | rdstatus _ _ =>
    obtain ⟨rfl, rfl⟩ := wellFormed_rdstatus_iff.mp hwf
    obtain ⟨-, rfl⟩ := wellFormed_rdstatus_iff.mp hwf'
    exact respond_sameControl hphase hbs .ok _ _

/-- So do all commands: the checks before a command read the word, the payload's length and PHASE, BS and configuration. -/
theorem exec_sameControl {i : Instr} {q : List Byte} {s u : State} (hlen : i.payload.length = q.length)
    (hphase : s.phase = u.phase) (hbs : s.bs = u.bs) (hcfg : s.cfg = u.cfg) :
    SameControl (exec i s) (exec (withPayload i q) u) := by
  have hwf' : (withPayload i q).wellFormed u.cfg = i.wellFormed s.cfg := by rw [wellFormed_withPayload u.cfg hlen, hcfg]
  cases hwf : i.wellFormed s.cfg with
  | false =>
    rw [exec_of_illFormed hwf, exec_of_illFormed (hwf'.trans hwf)]
    exact respond_sameControl hphase hbs .badArg _ _
  | true =>
    by_cases hlegal : PhaseLegal i s
    · exact exec_sameControl_of_phaseLegal hlen hphase hbs hcfg hwf hlegal
    · have hlegal' := (phaseLegal_withPayload i q hphase hbs).not.mpr hlegal
      rw [exec_of_not_phaseLegal hwf hlegal, exec_of_not_phaseLegal (hwf'.trans hwf) hlegal', hphase]
      exact respond_sameControl hphase hbs _ _ _

/-- Settles O47: commands with the same word differ in the payload only, and neither the checks nor the operations decide
by its bytes or by the lanes. -/
theorem acceptanceIgnoresTheData : Obligations.AcceptanceIgnoresTheData := by
  intro i j s u hword hlen hphase hbs hcfg
  rw [eq_withPayload_of_encode_eq hword]
  exact exec_sameControl hlen hphase hbs hcfg

end Sys2Proof.Machine
end

section
/-! The reset statement (family 70_reset_and_hazards.md): what a reset writes, and the only fields it reads. -/

namespace Sys2Proof.Machine

open Sys2Proof

/-- Of the state before it, a reset keeps the constants (R34), the host's coming actions and the free-value counter, and
nothing else: not the phase, BS, the lanes or the response. -/
theorem applyReset_congr {s u : State} (hcfg : s.cfg = u.cfg) (hhost : s.host = u.host)
    (hfree : s.freeCount = u.freeCount) : s.applyReset = u.applyReset := by
  unfold State.applyReset
  rw [hcfg, hhost, hfree]

/-- Settles O7: a step that takes a reset is the reset itself, with the action gone from the host's list. -/
theorem resetActionResets : Obligations.ResetActionResets := by
  refine ⟨fun s rest hs => ?_, fun s u rest hs hu hcfg hfree => ?_⟩
  · exact ⟨{ s with host := rest }.applyReset, step_of_reset hs, State.applyReset_phase _, State.applyReset_bs _,
      State.applyReset_cfg _, State.applyReset_response _, State.applyReset_host _⟩
  · have hsame : { s with host := rest }.applyReset = { u with host := rest }.applyReset :=
      applyReset_congr hcfg rfl hfree
    rw [step_of_reset hs, step_of_reset hu, hsame]

end Sys2Proof.Machine
end
